-- ==== Sys2Proof/Word.lean ====
section
/-! DEFINITION. The unit of the program stream. A byte is 8 bits (00_scope.md R5, 92 D4). Memory cells are not words:
a cell is an unbounded non-negative integer, `Nat` (10_state.md R10, 92 D3). -/

namespace Sys2Proof

/-- One byte of the program stream, values 0 to 255 (00_scope.md R5). -/
abbrev Byte := BitVec 8

end Sys2Proof
end

