-- ==== Sys2Proof/Syntax.lean ====
section
/-! DEFINITION. The instruction set: the closed set {LDC, LDM, STM, MAX} (30_encoding.md R50), one constructor per row of
the opcode table. -/

namespace Sys2Proof

/-- An instruction with its operands B, C and (MAX only) D in source order. Operands are non-negative integers of any
size, as in the spec's IR (30_encoding.md R50, R69): an operand too wide for its field is legal here and wraps at encode
(R58); `Instr.wf` says which instructions need no wrap. -/
inductive Instr where
  /-- `M[B] <- C`, C a literal (41_data_movement.md R110). -/
  | ldc (b c : Nat)
  /-- `M[B] <- M[M[C]]` (41_data_movement.md R111). -/
  | ldm (b c : Nat)
  /-- `M[C] <- M[B]` (41_data_movement.md R112). -/
  | stm (b c : Nat)
  /-- `M[C] <- max(M[B], M[D])`, the destination in the middle (42_max.md R120). -/
  | max (b c d : Nat)
  deriving DecidableEq, Repr

end Sys2Proof
end

