-- ==== Sys2Proof/WellFormed.lean ====
section
/-! DEFINITION. Which instructions fit their encoding: the "valid field ranges" of the round trip contract
(30_encoding.md R60): B, C and D fit 22 bits, LDC's C fits 16 bits (00_scope.md R6). -/

namespace Sys2Proof

/-- `v` fits an unsigned field of `width` bits. -/
def fitsField (width v : Nat) : Bool := decide (v < 2 ^ width)

/-- Every operand fits its field (30_encoding.md R60). -/
def Instr.wf : Instr → Bool
  | .ldc b c => fitsField 22 b && fitsField 16 c
  | .ldm b c => fitsField 22 b && fitsField 22 c
  | .stm b c => fitsField 22 b && fitsField 22 c
  | .max b c d => fitsField 22 b && fitsField 22 c && fitsField 22 d

end Sys2Proof
end

