-- ==== Sys2Proof/Decode.lean ====
section
/-! DEFINITION. The Codec (30_encoding.md R50 to R65): the layout table, the little-endian instruction word, `decode`
and `encode`. Both are stateless functions (00_scope.md R4). -/

namespace Sys2Proof

/-- The opcode of an instruction: `enum{LDC,LDM,STM,MAX}` (30_encoding.md R50). -/
inductive Opcode where
  | ldc | ldm | stm | max
  deriving DecidableEq, Repr

/-- The two conditions `decode` signals as return values (30_encoding.md R59, 60_exceptions.md R131 and R132). Neither
is a trap: the framer absorbs both. -/
inductive DecodeCondition where
  /-- A recognised tag, but fewer bytes than its length; also the empty sequence. -/
  | truncatedInstruction
  /-- The tag is none of 13, 31, 7, 28. -/
  | unknownOpcode
  deriving DecidableEq, Repr

/-- A field `name[offset,width)` of the instruction word: it starts at bit `offset` and is `width` bits wide
(00_scope.md section 6). -/
structure Field where
  offset : Nat
  width : Nat
  deriving DecidableEq, Repr

/-- Field B, `B[5,22)` in all four formats (30_encoding.md R51). -/
def fieldB : Field := { offset := 5, width := 22 }

/-- LDC's field C, `C[27,16)` (30_encoding.md R52). -/
def fieldC16 : Field := { offset := 27, width := 16 }

/-- Field C of LDM, STM and MAX, `C[27,22)` (30_encoding.md R53 to R55). -/
def fieldC22 : Field := { offset := 27, width := 22 }

/-- MAX's field D, `D[49,22)` (30_encoding.md R55). -/
def fieldD : Field := { offset := 49, width := 22 }

/-- The field's value in the word `w`: shifted right by its offset and masked to its width (30_encoding.md R59, R65). -/
def Field.extract (f : Field) (w : Nat) : Nat := (w >>> f.offset) &&& (2 ^ f.width - 1)

/-- An operand reduced to its field: it wraps modulo 2^width (30_encoding.md R58, 92 D9). -/
def Field.wrap (f : Field) (v : Nat) : Nat := v % 2 ^ f.width

/-- An operand wrapped and shifted into the field's place (30_encoding.md R57). -/
def Field.place (f : Field) (v : Nat) : Nat := f.wrap v <<< f.offset

/-- The 5-bit opcode tag (30_encoding.md R51). -/
def Opcode.tag : Opcode → Nat
  | .ldc => 13
  | .ldm => 31
  | .stm => 7
  | .max => 28

/-- The length table keyed by opcode, in bytes (30_encoding.md R56). -/
def Opcode.length : Opcode → Nat
  | .ldc => 6
  | .ldm => 7
  | .stm => 7
  | .max => 9

/-- The operand count of the opcode (30_encoding.md R56). -/
def Opcode.arity : Opcode → Nat
  | .ldc => 2
  | .ldm => 2
  | .stm => 2
  | .max => 3

/-- The opcode a 5-bit tag stands for; none for the 28 unrecognised tags (30_encoding.md R62). -/
def opcodeOfTag (tag : Nat) : Option Opcode :=
  if tag = 13 then some .ldc
  else if tag = 31 then some .ldm
  else if tag = 7 then some .stm
  else if tag = 28 then some .max
  else none

/-- The tag of an instruction that starts with this byte: its low 5 bits and nothing else (30_encoding.md R63, R64). -/
def tagOf (first : Byte) : Nat := first.toNat &&& 0x1F

/-- The opcode of an instruction that starts with this byte. -/
def opcodeOfByte (first : Byte) : Option Opcode := opcodeOfTag (tagOf first)

/-- The Codec's length table on tags (30_encoding.md R56); none where the tag is unrecognised. -/
def lengthOfTag (tag : Nat) : Option Nat := (opcodeOfTag tag).map Opcode.length

/-- Bytes read as an unsigned little-endian integer, the first byte least significant (00_scope.md section 6). -/
def littleEndian : List Byte → Nat
  | [] => 0
  | b :: rest => b.toNat + 256 * littleEndian rest

/-- The `n` low bytes of `w`, least significant first; higher bits are discarded (30_encoding.md R57). -/
def bytesOfWord : Nat → Nat → List Byte
  | 0, _ => []
  | n + 1, w => BitVec.ofNat 8 w :: bytesOfWord n (w / 256)

/-- The opcode of an instruction. -/
def Instr.opcode : Instr → Opcode
  | .ldc _ _ => .ldc
  | .ldm _ _ => .ldm
  | .stm _ _ => .stm
  | .max _ _ _ => .max

/-- The instruction read from the word of an instruction whose tag is known (30_encoding.md R52 to R55, R65). -/
def instrOfWord (op : Opcode) (w : Nat) : Instr :=
  match op with
  | .ldc => .ldc (fieldB.extract w) (fieldC16.extract w)
  | .ldm => .ldm (fieldB.extract w) (fieldC22.extract w)
  | .stm => .stm (fieldB.extract w) (fieldC22.extract w)
  | .max => .max (fieldB.extract w) (fieldC22.extract w) (fieldD.extract w)

/-- `decode` (30_encoding.md R59): the tag is examined before the length; bytes beyond the length are ignored, and so
are the pad bits (R61). The empty sequence is truncated (92 D15). -/
def decode : List Byte → Except DecodeCondition Instr
  | [] => .error .truncatedInstruction
  | first :: rest =>
    match opcodeOfByte first with
    | none => .error .unknownOpcode
    | some op =>
      if (first :: rest).length < op.length then .error .truncatedInstruction
      else .ok (instrOfWord op (littleEndian ((first :: rest).take op.length)))

/-- The instruction word `encode` composes from the tag and the operands (30_encoding.md R57). -/
def Instr.word : Instr → Nat
  | .ldc b c => Opcode.ldc.tag ||| fieldB.place b ||| fieldC16.place c
  | .ldm b c => Opcode.ldm.tag ||| fieldB.place b ||| fieldC22.place c
  | .stm b c => Opcode.stm.tag ||| fieldB.place b ||| fieldC22.place c
  | .max b c d => Opcode.max.tag ||| fieldB.place b ||| fieldC22.place c ||| fieldD.place d

/-- `encode` (30_encoding.md R57): the word's declared number of bytes, little-endian. Its pad bits are 0 (R61). -/
def encode (i : Instr) : List Byte := bytesOfWord i.opcode.length i.word

/-- The instruction with every operand reduced to its field: what `decode (encode i)` gives (30_encoding.md R58, R60). -/
def Instr.wrapped : Instr → Instr
  | .ldc b c => .ldc (fieldB.wrap b) (fieldC16.wrap c)
  | .ldm b c => .ldm (fieldB.wrap b) (fieldC22.wrap c)
  | .stm b c => .stm (fieldB.wrap b) (fieldC22.wrap c)
  | .max b c d => .max (fieldB.wrap b) (fieldC22.wrap c) (fieldD.wrap d)

/-- How many pad bits stand above the last field of the format, all of them in the last byte (30_encoding.md R61). -/
def Opcode.padBits : Opcode → Nat
  | .ldc => 5
  | .ldm => 7
  | .stm => 7
  | .max => 1

/-- The IR instruction with these operands in source order; none where their count is not the opcode's arity
(30_encoding.md R50, R72). -/
def Instr.ofOperands (op : Opcode) (operands : List Nat) : Option Instr :=
  match op, operands with
  | .ldc, [b, c] => some (.ldc b c)
  | .ldm, [b, c] => some (.ldm b c)
  | .stm, [b, c] => some (.stm b c)
  | .max, [b, c, d] => some (.max b c d)
  | _, _ => none

/-- The bytes of an opcode-table word: bit k of `w` is bit `k mod 8` of byte `k div 8` (00_scope.md section 6), every
bit above `nbits` zero, up to the longest instruction, 9 bytes (log entry 24). -/
def tableWordBytes (nbits w : Nat) : List Byte := bytesOfWord Opcode.max.length (w % 2 ^ nbits)

/-- The instruction the decoder reads from an opcode-table word. -/
def decodeTableWord (nbits w : Nat) : Option Instr :=
  match decode (tableWordBytes nbits w) with
  | .ok i => some i
  | .error _ => none

end Sys2Proof
end

