-- ==== Sys2Proof/Machine/Framer.lean ====
section
/-! DEFINITION. The framer: the load phase that splits a byte stream into framed instructions (40_engine.md R91 to R94),
and the conditions it absorbs on the way (60_exceptions.md R131, R132). -/

namespace Sys2Proof.Machine

/-- The scan of 40_engine.md R91 once `skip` more bytes of the instruction just recorded have been passed over. At the
start of an instruction: a recognised tag with enough bytes left records its slice, a recognised tag with too few stops
the scan (R93), an unrecognised tag advances by one byte (R92). -/
def frameFrom : Nat → List Byte → List (List Byte)
  | _, [] => []
  | skip + 1, _ :: rest => frameFrom skip rest
  | 0, first :: rest =>
    match lengthOfTag (tagOf first) with
    | some n =>
      if (first :: rest).length < n then [] else (first :: rest).take n :: frameFrom (n - 1) rest
    | none => frameFrom 0 rest

/-- `frame(P)` (40_engine.md R91): the scan from offset 0. -/
def frame (program : List Byte) : List (List Byte) := frameFrom 0 program

/-- The conditions the scan absorbs, each with its byte offset, in stream order. The spec allows a model this diagnostic
list beside the state (92 D11, 60_exceptions.md R131); no rule reads it and no operation of the machine uses it. -/
def frameConditionsFrom : Nat → Nat → List Byte → List (DecodeCondition × Nat)
  | _, _, [] => []
  | skip + 1, off, _ :: rest => frameConditionsFrom skip (off + 1) rest
  | 0, off, first :: rest =>
    match lengthOfTag (tagOf first) with
    | some n =>
      if (first :: rest).length < n then [(.truncatedInstruction, off)]
      else frameConditionsFrom (n - 1) (off + 1) rest
    | none => (.unknownOpcode, off) :: frameConditionsFrom 0 (off + 1) rest

/-- The conditions absorbed while framing the stream from offset 0. -/
def frameConditions (program : List Byte) : List (DecodeCondition × Nat) := frameConditionsFrom 0 0 program

end Sys2Proof.Machine
end

