-- ==== Sys2Proof/Config.lean ====
section
/-! DEFINITION. What an instance fixes: the defaults of the open parameters (00_scope.md R5, 92 section 3). The spec
leaves no value undefined (93 section 1), so there is no free value and no opaque constant here. -/

namespace Sys2Proof

/-- MEM_SIZE where CONSTRUCT is given none (70_reset_and_hazards.md R150). -/
def Config.defaultMemSize : Nat := 65536

/-- DUMP's start where the host gives no range (20_memory.md R46). -/
def Config.defaultDumpStart : Nat := 0

/-- DUMP's end, exclusive, where the host gives no range (20_memory.md R46). -/
def Config.defaultDumpEnd : Nat := 100

end Sys2Proof
end

