-- ==== Sys2Proof/Machine/State.lean ====
section
/-! DEFINITION. The machine's state as plain data: the tuple (M, P, F, pc, running) of 10_state.md R17 with MEM_SIZE,
the reasons a step can stop, and the state after CONSTRUCT. -/

namespace Sys2Proof.Machine

/-- Memory `M` (10_state.md R10): the cells whose value is not 0, as (address, value) pairs. An address that is not
listed reads as 0, the value every cell has at reset. Cells are whole integers, never bytes (20_memory.md R32, 92 D3);
log entries 2 and 3. -/
abbrev Memory := List (Nat × Nat)

/-- The canonical form: addresses strictly rising, and no listed cell holds 0, the value an unlisted address reads as.
Equal memories are then equal lists. -/
abbrev Memory.wf (m : Memory) : Prop :=
  m.Pairwise (fun x y => x.1 < y.1) ∧ ∀ cell ∈ m, cell.2 ≠ 0

/-- The faults of the machine. There are none: no instruction raises anything, nothing traps and nothing hangs
(60_exceptions.md R135, R138, 70_reset_and_hazards.md R162). The type is closed and empty; log entry 15. -/
inductive Fault where
  deriving DecidableEq, Repr

/-- The reasons a step can be refused. -/
inductive Refusal where
  /-- Raised by an arm of `exec` that has no meaning yet. Safe: the machine stops where the hardware goes on. No arm of
  this model raises it. -/
  | notModelled (mnemonic : String)
  /-- Raised by the memory interface (`State.withCell`, `State.storeCell`) on a request for a cell at or above MEM_SIZE,
  which does not exist: the interface refuses the request rather than answer it (20_memory.md R33, 92 D20). Safe. The
  engine never issues such a request, so no instruction ends in it; log entry 14. -/
  | absentCell (address : Nat)
  deriving DecidableEq, Repr

/-- The state of the machine (10_state.md R17). -/
structure State where
  /-- MEM_SIZE, the number of cells: fixed by CONSTRUCT, written by nothing after it (10_state.md R10, 92 D2). -/
  memSize : Nat
  /-- `M` (10_state.md R10). -/
  mem : Memory
  /-- `P`, the loaded byte stream (10_state.md R11). -/
  program : List Byte
  /-- `F`, the framed-instruction sequence (10_state.md R12). -/
  framed : List (List Byte)
  /-- The instruction index into `F` (10_state.md R14). -/
  pc : Nat
  /-- The run flag; nothing writes it after CONSTRUCT (10_state.md R16). -/
  running : Bool
  deriving DecidableEq, Repr

/-- CONSTRUCT(MEM_SIZE), the machine's only reset (10_state.md R21, 70_reset_and_hazards.md R150). -/
def State.construct (memSize : Nat) : State :=
  { memSize := memSize, mem := [], program := [], framed := [], pc := 0, running := true }

/-- The machine right after reset: CONSTRUCT with the default MEM_SIZE (70_reset_and_hazards.md R150). -/
def State.reset : State := State.construct Config.defaultMemSize

/-- What an operation of the machine answers. -/
abbrev Result := Host.Outcome State Fault Refusal

end Sys2Proof.Machine
end

