-- ==== Sys2Proof/Machine/Ops.lean ====
section
/-! DEFINITION. The named operations over memory and state: reading and writing cells, the bounds rule, fetching the
next framed instruction, advancing pc, and the state changes of LOAD and of the start of RUN. There is no operation that
takes an exception and none that returns from one: the machine has neither (60_exceptions.md R138, R139). -/

namespace Sys2Proof.Machine

/-- The value of cell `a`: its listed value, else 0. -/
def Memory.read : Memory → Nat → Nat
  | [], _ => 0
  | (b, v) :: rest, a => if a = b then v else Memory.read rest a

/-- `m` with no entry for the address `a`. -/
def Memory.erase (m : Memory) (a : Nat) : Memory := m.filter fun cell => cell.1 ≠ a

/-- `m` with the entry `(a, v)` put at its place in rising address order. -/
def Memory.insert : Memory → Nat → Nat → Memory
  | [], a, v => [(a, v)]
  | (b, w) :: rest, a, v =>
    if a < b then (a, v) :: (b, w) :: rest else (b, w) :: Memory.insert rest a v

/-- `M[a] <- v`: the whole cell is replaced (20_memory.md R36). Writing 0 removes the entry, so that the canonical form
is kept. -/
def Memory.write (m : Memory) (a v : Nat) : Memory :=
  if v = 0 then m.erase a else (m.erase a).insert a v

/-- `inrange(a)`: `a < MEM_SIZE`; an address is never negative (20_memory.md R31). -/
def State.inRange (s : State) (a : Nat) : Bool := decide (a < s.memSize)

/-- The value of cell `a` as the host and the statements see it. -/
def State.cell (s : State) (a : Nat) : Nat := s.mem.read a

/-- `s` with memory replaced. -/
def State.setMem (s : State) (m : Memory) : State := { s with mem := m }

/-- `MemRead(a, 1)` (20_memory.md R36): defined for a cell that exists, and for nothing else (R33, 92 D20). -/
def State.memRead (s : State) (a : Nat) : Option Nat :=
  if s.inRange a then some (s.cell a) else none

/-- Read cell `a` and go on with its value; a request for an absent cell is refused (20_memory.md R33). A read has no
side effect (R36). -/
def State.withCell (s : State) (a : Nat) (next : Nat → Result) : Result :=
  match s.memRead a with
  | some v => next v
  | none => .refused (.absentCell a)

/-- `MemWrite(a, 1, v)` (20_memory.md R36); a request for an absent cell is refused (R33). -/
def State.storeCell (s : State) (a v : Nat) : Result :=
  if s.inRange a then .next (s.setMem (s.mem.write a v)) else .refused (.absentCell a)

/-- The bounds rule shared by every instruction (40_engine.md R100): only if ALL participating addresses are in range
does the instruction have its effect; otherwise it changes nothing, and nothing is signalled. -/
def State.whenAllInRange (s : State) (participating : List Nat) (effect : Result) : Result :=
  if participating.all s.inRange then effect else .next s

/-- RUN's loop condition `running and pc < N` (40_engine.md R96, 92 D7). -/
def State.inLoop (s : State) : Bool := s.running && decide (s.pc < s.framed.length)

/-- The framed instruction the next step runs: `F[pc]` while the loop condition holds, none once the run is over
(40_engine.md R96, R97). -/
def State.fetch (s : State) : Option (List Byte) := if s.inLoop then s.framed[s.pc]? else none

/-- `pc <- pc + 1` (10_state.md R15). -/
def State.advance (s : State) : State := { s with pc := s.pc + 1 }

/-- The end of a step: whatever the instruction did, pc advances by exactly 1 (40_engine.md R97). -/
def thenAdvance : Result → Result
  | .next s => .next s.advance
  | .fault r => .fault r
  | .refused r => .refused r

/-- LOAD(bytes): stores `P`, frames `F`, and touches nothing else (40_engine.md R90, 92 D13). -/
def State.load (s : State) (bytes : List Byte) : State :=
  { s with program := bytes, framed := frame bytes }

/-- The start of RUN: `pc <- 0` and nothing else (40_engine.md R95, 92 D12). -/
def State.beginRun (s : State) : State := { s with pc := 0 }

end Sys2Proof.Machine
end

