-- ==== Sys2Proof/Machine/Flags.lean ====
section
/-! DEFINITION. The flag computations: there are none, the machine has no flags, condition codes or predicates
(10_state.md R19). This file holds the one comparison the machine makes, MAX's, whose outcome is kept nowhere but in
the value written. -/

namespace Sys2Proof.Machine

/-- `max(p, q)` on cell values, `p` if `p >= q`, otherwise `q`: the mathematical maximum of two non-negative integers
(42_max.md R120, R121, R122). -/
def largerOf (p q : Nat) : Nat := if p ≥ q then p else q

end Sys2Proof.Machine
end

