-- ==== Sys2Proof/Machine/Operands.lean ====
section
/-! DEFINITION. The three ways of naming an operand (41_data_movement.md R109), the addresses each makes participate in
the bounds rule (40_engine.md R100), and reading each. -/

namespace Sys2Proof.Machine

/-- A source operand under its addressing mode (41_data_movement.md R109). -/
inductive Operand where
  /-- The field value itself is the datum: LDC's C. -/
  | immediate (v : Nat)
  /-- The operand is `M[a]`. -/
  | direct (a : Nat)
  /-- The operand is `M[M[a]]`: LDM's C. -/
  | indirect (a : Nat)
  deriving DecidableEq, Repr

/-- The participating addresses of a source operand (40_engine.md R100). A memory-indirect operand adds the address
held in its cell, which is read only where the cell itself is in range (41_data_movement.md R111, 92 D8); where it is
not, the cell's own address already fails the check. -/
def Operand.participating (o : Operand) (s : State) : List Nat :=
  match o with
  | .immediate _ => []
  | .direct a => [a]
  | .indirect a => a :: (s.memRead a).toList

/-- Read the operand's value and go on with it (41_data_movement.md R109). -/
def Operand.withValue (o : Operand) (s : State) (next : Nat → Result) : Result :=
  match o with
  | .immediate v => next v
  | .direct a => s.withCell a next
  | .indirect a => s.withCell a fun p => s.withCell p next

/-- Move the source operand's value into cell `dst`: the bounds check first, then the reads, then the one write
(20_memory.md R40, 92 D19). -/
def State.moveInto (s : State) (dst : Nat) (src : Operand) : Result :=
  s.whenAllInRange (dst :: src.participating s) (src.withValue s fun v => s.storeCell dst v)

/-- Combine two source operands into cell `dst`, in the same order of check, reads and write. -/
def State.combineInto (s : State) (dst : Nat) (x y : Operand) (f : Nat → Nat → Nat) : Result :=
  s.whenAllInRange (dst :: (x.participating s ++ y.participating s))
    (x.withValue s fun p => y.withValue s fun q => s.storeCell dst (f p q))

end Sys2Proof.Machine
end

