-- ==== Sys2Proof/Machine/Arithmetic.lean ====
section
/-! DEFINITION. The meaning of MAX, the one computing instruction (42_max.md). -/

namespace Sys2Proof.Machine

/-- MAX B C D: `M[C] <- max(M[B], M[D])`, the destination in the middle (42_max.md R120, 90 C2). -/
def execMax (b c d : Nat) (s : State) : Result := s.combineInto c (.direct b) (.direct d) largerOf

end Sys2Proof.Machine
end

