-- ==== Sys2Proof/Machine/DataMovement.lean ====
section
/-! DEFINITION. The meanings of LDC, LDM and STM (41_data_movement.md). pc is advanced by the step (40_engine.md R97),
not here. -/

namespace Sys2Proof.Machine

/-- LDC B C: `M[B] <- C`, C a literal (41_data_movement.md R110). -/
def execLdc (b c : Nat) (s : State) : Result := s.moveInto b (.immediate c)

/-- LDM B C: `M[B] <- M[M[C]]`, two-level indirection (41_data_movement.md R111). -/
def execLdm (b c : Nat) (s : State) : Result := s.moveInto b (.indirect c)

/-- STM B C: `M[C] <- M[B]`, direct on both sides, the source first and the destination second
(41_data_movement.md R112). -/
def execStm (b c : Nat) (s : State) : Result := s.moveInto c (.direct b)

end Sys2Proof.Machine
end

