-- ==== Sys2Proof/Machine/Dispatch.lean ====
section
/-! DEFINITION. The dispatch: an exhaustive match over {LDC, LDM, STM, MAX}; there is no fifth case (40_engine.md R97). -/

namespace Sys2Proof.Machine

def exec (i : Instr) (s : State) : Host.Outcome State Fault Refusal :=
  match i with
  | .ldc b c => Sys2Proof.Machine.execLdc b c s
  | .ldm b c => Sys2Proof.Machine.execLdm b c s
  | .stm b c => Sys2Proof.Machine.execStm b c s
  | .max b c d => Sys2Proof.Machine.execMax b c d s

end Sys2Proof.Machine
end

