-- ==== Sys2Proof/Machine/Step.lean ====
section
/-! DEFINITION. One step: one iteration of RUN's loop (40_engine.md R96, R97). -/

namespace Sys2Proof.Machine

/-- STEP (40_engine.md R97): decode the framed instruction at pc, execute it, or skip where decode fails (R98), then
pc <- pc + 1. Where the loop condition is false the run is over and the machine holds its state (R102,
60_exceptions.md R146); log entry 4. -/
def step (s : State) : Host.Outcome State Fault Refusal :=
  match s.fetch with
  | none => .next s
  | some slice =>
    match decode slice with
    | .ok i => thenAdvance (exec i s)
    | .error _ => thenAdvance (.next s)

/-- `s` with an opcode-table word as its loaded program and RUN begun, so that the next step runs exactly that
instruction: what LOAD and the start of RUN do, with the run flag set (log entry 5). -/
def State.withFetchWord (s : State) (nbits w : Nat) : State :=
  { (s.load (tableWordBytes nbits w)).beginRun with running := true }

end Sys2Proof.Machine
end

