-- ==== Sys2Proof/Machine/Transactions.lean ====
section
/-! DEFINITION. The host's four transactions CONSTRUCT, LOAD, RUN and DUMP (00_scope.md R4). Each is one function of the
state, atomic as the host sees it: the host acts only between transactions (70_reset_and_hazards.md R157, 92 D14); log
entry 6. -/

namespace Sys2Proof.Machine

/-- RUN's loop `while running and pc < N: STEP` (40_engine.md R96), for at most `fuel` iterations. -/
def runLoop : Nat → State → Result
  | 0, s => .next s
  | fuel + 1, s =>
    if s.inLoop then
      match step s with
      | .next t => runLoop fuel t
      | .fault r => .fault r
      | .refused r => .refused r
    else .next s

/-- RUN (40_engine.md R95, R96): `pc <- 0`, then the loop. N iterations are all the loop can make (R99), so N is fuel
enough. -/
def run (s : State) : Result := runLoop s.framed.length s.beginRun

/-- The decimal digit of a number below 10. -/
def digitChar (d : Nat) : Char := Char.ofNat (48 + d)

/-- The decimal digits of `n`, most significant first; `fuel` above `n` is enough. -/
def decimalDigits : Nat → Nat → List Char
  | 0, _ => []
  | fuel + 1, n =>
    if n < 10 then [digitChar n] else decimalDigits fuel (n / 10) ++ [digitChar (n % 10)]

/-- The decimal numeral of `n`: no sign, no leading zeros, no padding (20_memory.md R45, 92 D21). -/
def decimalNumeral (n : Nat) : List Char := decimalDigits (n + 1) n

/-- The key of address `a` in a dump (20_memory.md R45). -/
def dumpKey (a : Nat) : String := String.ofList (decimalNumeral a)

/-- DUMP(start, end) (20_memory.md R44): the cells of `[start, min(end, MEM_SIZE))` whose value is not 0, keyed by
address. The list is in rising address order; the order of a mapping carries no meaning (R45); log entry 19. -/
def dump (s : State) (start stop : Nat) : List (String × Nat) :=
  (List.range' start (min stop s.memSize - start)).filterMap fun a =>
    if s.cell a ≠ 0 then some (dumpKey a, s.cell a) else none

/-- What the host can ask of the machine (00_scope.md R4). An argument the host may leave out is an `Option`: MEM_SIZE
(70_reset_and_hazards.md R150) and DUMP's range (20_memory.md R46). -/
inductive Transaction where
  | construct (memSize : Option Nat)
  | load (bytes : List Byte)
  | run
  | dump (range : Option (Nat × Nat))
  deriving DecidableEq, Repr

/-- The state a transaction leaves. CONSTRUCT destroys all state (70_reset_and_hazards.md R157); DUMP changes none
(20_memory.md R44). -/
def transact (t : Transaction) (s : State) : Result :=
  match t with
  | .construct memSize => .next (State.construct (memSize.getD Config.defaultMemSize))
  | .load bytes => .next (s.load bytes)
  | .run => run s
  | .dump _ => .next s

/-- What a transaction reports to the host: DUMP its mapping, the others nothing (92 D11, D25). -/
def answer (t : Transaction) (s : State) : Option (List (String × Nat)) :=
  match t with
  | .construct _ => none
  | .load _ => none
  | .run => none
  | .dump range =>
    let (start, stop) := range.getD (Config.defaultDumpStart, Config.defaultDumpEnd)
    some (dump s start stop)

/-- A session: transactions one after another. -/
def session : List Transaction → State → Result
  | [], s => .next s
  | t :: rest, s =>
    match transact t s with
    | .next s' => session rest s'
    | .fault r => .fault r
    | .refused r => .refused r

end Sys2Proof.Machine
end

