-- ==== Sys2Proof/Machine/Assembler.lean ====
section
/-! DEFINITION. The assembler: source text to byte stream (30_encoding.md R66 to R74). It is software around the block
(00_scope.md R3): it touches no state of the machine, and the hardware never sees its errors (60_exceptions.md R133). -/

namespace Sys2Proof.Machine

/-- The three assembly-time conditions, fatal, each with its line (60_exceptions.md R130). -/
inductive AsmError where
  /-- An operand token is not one or more decimal digits (30_encoding.md R70). -/
  | malformedOperand (line : Nat) (token : List Char)
  /-- The first token, lowercased, is no mnemonic (30_encoding.md R71). That it carries the token beside the line is
  the model's choice, log entry 18. -/
  | unknownMnemonic (line : Nat) (token : List Char)
  /-- The operand count is not the opcode's arity (30_encoding.md R72). -/
  | arityMismatch (line : Nat)
  deriving DecidableEq, Repr

/-- The whole taxonomy of conditions, names only, no numeric codes (60_exceptions.md R130). -/
inductive Condition where
  | malformedOperand | unknownMnemonic | arityMismatch | truncatedInstruction | unknownOpcode
  deriving DecidableEq, Repr

/-- The condition an assembly error is an occurrence of. -/
def AsmError.condition : AsmError → Condition
  | .malformedOperand _ _ => .malformedOperand
  | .unknownMnemonic _ _ => .unknownMnemonic
  | .arityMismatch _ => .arityMismatch

/-- The condition a result of `decode` is an occurrence of. -/
def conditionOfDecode : DecodeCondition → Condition
  | .truncatedInstruction => .truncatedInstruction
  | .unknownOpcode => .unknownOpcode

/-- The line an assembly error names, counted from 1 (30_encoding.md R66). -/
def AsmError.line : AsmError → Nat
  | .malformedOperand line _ => line
  | .unknownMnemonic line _ => line
  | .arityMismatch line => line

/-- Whether the condition aborts what it arises in: the assembly-time ones do, the load-time ones never
(60_exceptions.md R130). -/
def Condition.fatal : Condition → Bool
  | .malformedOperand => true
  | .unknownMnemonic => true
  | .arityMismatch => true
  | .truncatedInstruction => false
  | .unknownOpcode => false

/-- A parsed line: an IR instruction before its operand count is checked (30_encoding.md R69, R72). -/
structure SourceInstr where
  line : Nat
  opcode : Opcode
  operands : List Nat
  deriving DecidableEq, Repr

/-- The pieces of a text between the characters `sep` picks; a text with none is one piece. -/
def splitAtAll (sep : Char → Bool) : List Char → List (List Char)
  | [] => [[]]
  | c :: rest =>
    if sep c then [] :: splitAtAll sep rest
    else
      match splitAtAll sep rest with
      | [] => [[c]]
      | piece :: pieces => (c :: piece) :: pieces

/-- Lines are separated by the line-feed character (30_encoding.md R66). -/
def isLineFeed (c : Char) : Bool := c == '\n'

/-- White space between tokens: space and horizontal tab (30_encoding.md R68, 92 D22). -/
def isBlank (c : Char) : Bool := c == ' ' || c == '\t'

/-- A line without the one carriage return that may end it (30_encoding.md R66, log entry 17). -/
def stripReturn (line : List Char) : List Char :=
  if line.getLast? = some '\r' then line.dropLast else line

/-- A line up to its first `#` (30_encoding.md R67). -/
def stripComment (line : List Char) : List Char := line.takeWhile fun c => c != '#'

/-- The tokens of a line (30_encoding.md R66 to R68). -/
def tokensOf (line : List Char) : List (List Char) :=
  (splitAtAll isBlank (stripComment (stripReturn line))).filter fun token => !token.isEmpty

/-- The opcode a mnemonic token names, in any case (30_encoding.md R68). -/
def opcodeOfMnemonic (token : List Char) : Option Opcode :=
  let lower := token.map Char.toLower
  if lower = ['l', 'd', 'c'] then some .ldc
  else if lower = ['l', 'd', 'm'] then some .ldm
  else if lower = ['s', 't', 'm'] then some .stm
  else if lower = ['m', 'a', 'x'] then some .max
  else none

/-- The value of a string of decimal digits (30_encoding.md R69). -/
def digitsValue (digits : List Char) : Nat := digits.foldl (fun n c => 10 * n + (c.toNat - 48)) 0

/-- An operand token is one or more decimal digits and nothing else, read in base 10 (30_encoding.md R69, 92 D16). -/
def parseOperand (token : List Char) : Option Nat :=
  if !token.isEmpty && token.all Char.isDigit then some (digitsValue token) else none

/-- The operand tokens of a line, left to right; the first that is no integer is reported (30_encoding.md R70). -/
def parseOperands (line : Nat) : List (List Char) → Except AsmError (List Nat)
  | [] => .ok []
  | token :: rest =>
    match parseOperand token with
    | none => .error (.malformedOperand line token)
    | some v =>
      match parseOperands line rest with
      | .ok vs => .ok (v :: vs)
      | .error e => .error e

/-- One line: nothing for an empty or comment line, else its mnemonic first and its operands after
(30_encoding.md R66 to R71, 92 D17). -/
def parseLine (line : Nat) (text : List Char) : Except AsmError (Option SourceInstr) :=
  match tokensOf text with
  | [] => .ok none
  | mnemonic :: operands =>
    match opcodeOfMnemonic mnemonic with
    | none => .error (.unknownMnemonic line mnemonic)
    | some opcode =>
      match parseOperands line operands with
      | .ok vs => .ok (some { line := line, opcode := opcode, operands := vs })
      | .error e => .error e

/-- The lines in order, numbered from `line` on; the first failure aborts (30_encoding.md R66, R70, R71). -/
def parseLines (line : Nat) : List (List Char) → Except AsmError (List SourceInstr)
  | [] => .ok []
  | text :: rest =>
    match parseLine line text with
    | .error e => .error e
    | .ok parsed =>
      match parseLines (line + 1) rest with
      | .ok more => .ok (parsed.toList ++ more)
      | .error e => .error e

/-- The parse of a whole source text to IR. -/
def parseSource (text : List Char) : Except AsmError (List SourceInstr) :=
  parseLines 1 (splitAtAll isLineFeed text)

/-- Lowering (30_encoding.md R72): the operand count must match the opcode's arity. -/
def lowerAll : List SourceInstr → Except AsmError (List Instr)
  | [] => .ok []
  | src :: rest =>
    match Instr.ofOperands src.opcode src.operands with
    | none => .error (.arityMismatch src.line)
    | some i =>
      match lowerAll rest with
      | .ok is => .ok (i :: is)
      | .error e => .error e

/-- The output stream of instructions: their encodings, concatenated in order with nothing between them
(30_encoding.md R73). -/
def encodeAll (is : List Instr) : List Byte := (is.map encode).flatten

/-- The assembler on characters: every line is parsed before any is lowered (30_encoding.md R72, 92 D17). -/
def assembleChars (text : List Char) : Except AsmError (List Byte) :=
  match parseSource text with
  | .error e => .error e
  | .ok parsed =>
    match lowerAll parsed with
    | .error e => .error e
    | .ok is => .ok (encodeAll is)

/-- The assembler: source text to the raw instruction stream (30_encoding.md R73). -/
def assemble (text : String) : Except AsmError (List Byte) := assembleChars text.toList

/-- The operands of an instruction, in source order. -/
def operandsOf : Instr → List Nat
  | .ldc b c => [b, c]
  | .ldm b c => [b, c]
  | .stm b c => [b, c]
  | .max b c d => [b, c, d]

/-- The upper-case name of an opcode. -/
def opcodeName : Opcode → List Char
  | .ldc => ['L', 'D', 'C']
  | .ldm => ['L', 'D', 'M']
  | .stm => ['S', 'T', 'M']
  | .max => ['M', 'A', 'X']

/-- An instruction written as this spec writes it, `LDC 492 964` (30_encoding.md R74); presentation only, log
entry 25. -/
def renderInstr (i : Instr) : List Char :=
  opcodeName i.opcode ++ (operandsOf i).flatMap fun v => ' ' :: decimalNumeral v

/-- Instructions written one to a line. -/
def renderAll (is : List Instr) : List Char := is.flatMap fun i => renderInstr i ++ ['\n']

end Sys2Proof.Machine
end

