-- ==== Sys2Proof/Machine/Lazy.lean ====
section
/-! DEFINITION. The lazily framing machine of 40_engine.md R103: it keeps a byte offset beside pc and frames one
instruction at each step, never reading `F`. It is a second machine, to be compared with `step`; the byte offset is not
architectural state (92 D26, log entry 21). -/

namespace Sys2Proof.Machine

/-- The first instruction a scan of these bytes frames: how many bytes the scan passes over up to its end, and its
slice; none where the scan ends without one (40_engine.md R91 to R93). -/
def nextFramed : List Byte → Option (Nat × List Byte)
  | [] => none
  | first :: rest =>
    match lengthOfTag (tagOf first) with
    | some n => if (first :: rest).length < n then none else some (n, (first :: rest).take n)
    | none => (nextFramed rest).map fun found => (found.1 + 1, found.2)

/-- The lazy machine: the architectural state and the byte offset in `P` where the next scan starts. -/
structure LazyState where
  base : State
  offset : Nat
  deriving DecidableEq, Repr

/-- The lazy machine at the start of a RUN. -/
def LazyState.start (s : State) : LazyState := { base := s.beginRun, offset := 0 }

/-- Put the outcome of the instruction back beside the new offset. -/
def LazyState.resume (offset : Nat) : Result → Host.Outcome LazyState Fault Refusal
  | .next s => .next { base := s, offset := offset }
  | .fault r => .fault r
  | .refused r => .refused r

/-- One step of the lazy machine: scan from the offset for the next instruction, execute it, advance pc by 1 and the
offset past the slice; hold where no further instruction is framed or `running` is false. -/
def lazyStep (l : LazyState) : Host.Outcome LazyState Fault Refusal :=
  if l.base.running then
    match nextFramed (l.base.program.drop l.offset) with
    | none => .next l
    | some (passed, slice) =>
      match decode slice with
      | .ok i => LazyState.resume (l.offset + passed) (thenAdvance (exec i l.base))
      | .error _ => LazyState.resume (l.offset + passed) (thenAdvance (.next l.base))
  else .next l

/-- `k` steps of the lazy machine. -/
def lazySteps : Nat → LazyState → Host.Outcome LazyState Fault Refusal
  | 0, l => .next l
  | k + 1, l =>
    match lazyStep l with
    | .next l' => lazySteps k l'
    | .fault r => .fault r
    | .refused r => .refused r

end Sys2Proof.Machine
end

