-- ==== Sys2Proof/Safety.lean ====
section
/-! DEFINITION. The terms claims use: what an instruction may touch, and the legal states of the machine. -/

namespace Sys2Proof.Machine

/-- The cell an instruction writes where it has its effect (20_memory.md R35). -/
def destination : Instr → Nat
  | .ldc b _ => b
  | .ldm b _ => b
  | .stm _ c => c
  | .max _ c _ => c

/-- The participating addresses of an instruction (40_engine.md R100): LDM's third is the address held in cell C,
counted where cell C exists (41_data_movement.md R111, 92 D8). -/
def participating (i : Instr) (s : State) : List Nat :=
  match i with
  | .ldc b _ => [b]
  | .ldm b c => if c < s.memSize then [b, c, s.cell c] else [b, c]
  | .stm b c => [b, c]
  | .max b c d => [b, c, d]

/-- Memory as CONSTRUCT and the four instructions can leave it: canonical, no cell outside MEM_SIZE, every cell value
below 2^16 (10_state.md R10, R13). -/
structure MemoryLegal (s : State) : Prop where
  canonical : s.mem.wf
  exists_cells : ∀ cell ∈ s.mem, cell.1 < s.memSize
  bounded : ∀ cell ∈ s.mem, cell.2 < 2 ^ 16

/-- The program as LOAD leaves it, and the run flag as CONSTRUCT leaves it (10_state.md R12, R16). -/
structure ProgramLegal (s : State) : Prop where
  framed_eq : s.framed = frame s.program
  running_eq : s.running = true

/-- A legal state of a run: memory and program legal and pc in its legal range 0 to N (10_state.md R14). Between a LOAD
and the next RUN pc may exceed the new N (log entry 7); there memory and program are legal still. -/
structure RunLegal (s : State) : Prop where
  memory : MemoryLegal s
  program : ProgramLegal s
  pc_le : s.pc ≤ s.framed.length

/-- `k` steps, stopping at the first that answers no next state. -/
def stepN : Nat → State → Result
  | 0, s => .next s
  | k + 1, s =>
    match step s with
    | .next t => stepN k t
    | .fault r => .fault r
    | .refused r => .refused r

/-- Instructions executed one after another, each on the state the one before left (20_memory.md R39). -/
def execAll : List Instr → State → Result
  | [], s => .next s
  | i :: rest, s =>
    match exec i s with
    | .next t => execAll rest t
    | .fault r => .fault r
    | .refused r => .refused r

/-- `t` agrees with `s` in everything but memory: MEM_SIZE, P, F, pc and running. -/
def SameButMemory (s t : State) : Prop :=
  t.memSize = s.memSize ∧ t.program = s.program ∧ t.framed = s.framed ∧ t.pc = s.pc ∧ t.running = s.running

end Sys2Proof.Machine
end

