-- ==== Sys2Proof/Certificates/Slice0/Obligations.lean ====
section
/-! DEFINITION. The statements about the machine, for the provers. Each docstring names the rule of spec/ it formalises;
where a clause rests on one of the spec's own decisions (92 D<n>) or on the model's choice, the docstring says so. -/

open Sys2Proof Sys2Proof.Machine

/-! ## The Codec -/

/-- Decoding an encoded well-formed instruction gives it back, whatever bytes follow it (30_encoding.md R60, "Contract:
`decode(encode(x)) == x` for all valid field ranges", with R59, "Bytes of `s` beyond the first `n` are ignored"). -/
def Obligations.DecodeOfEncodeIsTheInstruction : Prop :=
  ∀ (i : Instr) (rest : List Byte), i.wf = true → decode (encode i ++ rest) = .ok i

/-- An oversized operand wraps modulo 2^width inside its own field: it changes no other field and no pad bit
(30_encoding.md R58, R60). That each operand is reduced in its own field is the spec's decision D9. -/
def Obligations.OversizedOperandsWrapInTheirOwnField : Prop :=
  ∀ i : Instr, encode i = encode i.wrapped ∧ i.wrapped.wf = true ∧ decode (encode i) = .ok i.wrapped

/-- For bytes of exactly the instruction's length, re-encoding the decoded instruction gives the bytes with their pad
bits cleared, and the bytes themselves exactly when the pad bits are all 0 (30_encoding.md R60, R61; the spec's decision
D10 that pad bits are ignored on decode). -/
def Obligations.EncodeOfDecodeClearsPadBits : Prop :=
  ∀ (s : List Byte) (i : Instr), decode s = .ok i → s.length = i.opcode.length →
    encode i = bytesOfWord s.length (littleEndian s % 2 ^ (8 * s.length - i.opcode.padBits)) ∧
    (encode i = s ↔ littleEndian s < 2 ^ (8 * s.length - i.opcode.padBits))

/-- Every operand is one contiguous bit range of the instruction word, zero-extended, so it is below 2^width
(30_encoding.md R51, R65). -/
def Obligations.DecodedOperandsAreWordSlices : Prop :=
  ∀ (s : List Byte) (i : Instr), decode s = .ok i →
    i.wf = true ∧ i.opcode.length ≤ s.length ∧
    i.opcode.tag = littleEndian (s.take i.opcode.length) % 2 ^ 5 ∧
    match i with
    | .ldc b c =>
      b = littleEndian (s.take 6) / 2 ^ 5 % 2 ^ 22 ∧ c = littleEndian (s.take 6) / 2 ^ 27 % 2 ^ 16
    | .ldm b c =>
      b = littleEndian (s.take 7) / 2 ^ 5 % 2 ^ 22 ∧ c = littleEndian (s.take 7) / 2 ^ 27 % 2 ^ 22
    | .stm b c =>
      b = littleEndian (s.take 7) / 2 ^ 5 % 2 ^ 22 ∧ c = littleEndian (s.take 7) / 2 ^ 27 % 2 ^ 22
    | .max b c d =>
      b = littleEndian (s.take 9) / 2 ^ 5 % 2 ^ 22 ∧ c = littleEndian (s.take 9) / 2 ^ 27 % 2 ^ 22 ∧
        d = littleEndian (s.take 9) / 2 ^ 49 % 2 ^ 22

/-- The length table: 6, 7, 7 and 9 bytes for the tags 13, 31, 7 and 28, undefined on every other 5-bit tag, and the
arities (30_encoding.md R56). -/
def Obligations.LengthTableIsDefinedOnFourTags : Prop :=
  lengthOfTag 13 = some 6 ∧ lengthOfTag 31 = some 7 ∧ lengthOfTag 7 = some 7 ∧ lengthOfTag 28 = some 9 ∧
  (∀ t < 32, t ≠ 13 → t ≠ 31 → t ≠ 7 → t ≠ 28 → lengthOfTag t = none) ∧
  Opcode.ldc.length = 6 ∧ Opcode.ldm.length = 7 ∧ Opcode.stm.length = 7 ∧ Opcode.max.length = 9 ∧
  Opcode.ldc.arity = 2 ∧ Opcode.ldm.arity = 2 ∧ Opcode.stm.arity = 2 ∧ Opcode.max.arity = 3

/-- `decode` examines the tag before the length: an unrecognised tag is UnknownOpcode however many bytes remain, a
recognised one with too few bytes is TruncatedInstruction, and with enough it decodes (30_encoding.md R59, R62,
60_exceptions.md R137). That the empty sequence is truncated is the spec's decision D15. -/
def Obligations.DecodeTestsTheTagBeforeTheLength : Prop :=
  decode [] = .error .truncatedInstruction ∧
  ∀ (first : Byte) (rest : List Byte),
    (lengthOfTag (tagOf first) = none → decode (first :: rest) = .error .unknownOpcode) ∧
    ∀ n, lengthOfTag (tagOf first) = some n →
      ((first :: rest).length < n → decode (first :: rest) = .error .truncatedInstruction) ∧
      (n ≤ (first :: rest).length →
        ∃ i, decode (first :: rest) = .ok i ∧ i.opcode.length = n ∧ i.opcode.tag = tagOf first)

/-- Words written out from the layout tables decode to the instructions they stand for (30_encoding.md R52 to R55;
41_data_movement.md and 42_max.md, the examples; 95_test_vectors.md S1, E2, E14). -/
def Obligations.SpecWordsDecode : Prop :=
  decode [0x8D, 0x3D, 0x00, 0x20, 0x1E, 0x00] = .ok (.ldc 492 964) ∧
  decode [0xED, 0xFF, 0xFF, 0xFF, 0xFF, 0x07] = .ok (.ldc 4194303 65535) ∧
  decode [0xBF, 0x00, 0x00, 0x50, 0x00, 0x00, 0x00] = .ok (.ldm 5 10) ∧
  decode [0xA7, 0x00, 0x00, 0x50, 0x00, 0x00, 0x00] = .ok (.stm 5 10) ∧
  decode [0xBC, 0x00, 0x00, 0x50, 0x00, 0x00, 0x1E, 0x00, 0x00] = .ok (.max 5 10 15) ∧
  decode [0xFC, 0xFF, 0xFF, 0xFF, 0xFF, 0xFF, 0xFF, 0xFF, 0x7F] = .ok (.max 4194303 4194303 4194303)

/-! ## The framer -/

/-- The framing function: at each offset the tag of the current byte gives the length; too few remaining bytes stop the
scan, enough record the slice and advance by its length, an unrecognised tag advances by exactly 1 (40_engine.md
R91). -/
def Obligations.FramerScansByTheLengthTable : Prop :=
  frame [] = [] ∧
  ∀ (first : Byte) (rest : List Byte),
    (lengthOfTag (tagOf first) = none → frame (first :: rest) = frame rest) ∧
    ∀ n, lengthOfTag (tagOf first) = some n →
      ((first :: rest).length < n → frame (first :: rest) = []) ∧
      (n ≤ (first :: rest).length →
        frame (first :: rest) = (first :: rest).take n :: frame ((first :: rest).drop n))

/-- The framer is the Codec's only caller at load and absorbs its two conditions: UnknownOpcode skips exactly one byte
and records nothing, TruncatedInstruction stops the framing (40_engine.md R92, R93). -/
def Obligations.FramerAbsorbsDecodeConditions : Prop :=
  ∀ s : List Byte, s ≠ [] →
    (decode s = .error .unknownOpcode → frame s = frame s.tail) ∧
    (decode s = .error .truncatedInstruction → frame s = []) ∧
    (∀ i, decode s = .ok i → frame s = s.take i.opcode.length :: frame (s.drop i.opcode.length))

/-- Every element of F has a recognised tag and exactly its length, so decode returns an instruction and never a
condition (40_engine.md R94, 10_state.md R12). -/
def Obligations.FramedSlicesDecode : Prop :=
  ∀ (program slice : List Byte), slice ∈ frame program →
    ∃ i, decode slice = .ok i ∧ slice.length = i.opcode.length

/-- The elements of F are disjoint slices of P in increasing offset order (40_engine.md R94). -/
def Obligations.FramedSlicesAreDisjointAndInOrder : Prop :=
  ∀ program : List Byte, ∃ offsets : List Nat, offsets.length = (frame program).length ∧
    ∀ (k : Nat) (slice : List Byte) (off : Nat), (frame program)[k]? = some slice → offsets[k]? = some off →
      slice = (program.drop off).take slice.length ∧ off + slice.length ≤ program.length ∧
      ∀ (k' off' : Nat), k < k' → offsets[k']? = some off' → off + slice.length ≤ off'

/-- A stream of encoded instructions frames back into exactly those instructions, in order, with nothing skipped and
nothing truncated, and the scan then goes on with whatever follows (30_encoding.md R73, 40_engine.md R94). -/
def Obligations.EncodedStreamsFrameToTheirInstructions : Prop :=
  ∀ (is : List Instr) (rest : List Byte), frame (encodeAll is ++ rest) = is.map encode ++ frame rest

/-- Resynchronisation: a byte with an unrecognised tag between two instructions is lost and both are recovered
(40_engine.md R92; the source's testable property with the condition 90_conflicts.md C5 adds). -/
def Obligations.UnrecognisedByteBetweenInstructionsIsSkipped : Prop :=
  ∀ (i j : Instr) (garbage : Byte), lengthOfTag (tagOf garbage) = none →
    frame (encode i ++ garbage :: encode j) = [encode i, encode j]

/-- TruncatedInstruction occurs at most once, as the last condition, where the remaining bytes are too few;
UnknownOpcode occurs at bytes whose tag is unrecognised; conditions arise in stream order (60_exceptions.md R131, R132,
R137). The list of conditions is the diagnostic list the spec's decision D11 allows a model to keep. -/
def Obligations.LoadConditionsAriseInStreamOrder : Prop :=
  ∀ program : List Byte,
    ((frameConditions program).map Prod.snd).Pairwise (· < ·) ∧
    ∀ (k off : Nat) (c : DecodeCondition), (frameConditions program)[k]? = some (c, off) →
      decode (program.drop off) = .error c ∧ off < program.length ∧
      (c = .truncatedInstruction → k + 1 = (frameConditions program).length)

/-! ## Reset, LOAD and the memory interface -/

/-- After CONSTRUCT every cell is 0 and pc is 0, and the default machine has 65536 cells (10_state.md R21,
70_reset_and_hazards.md R150). Empty P and F and a true run flag are the spec's decisions D13 and D6 (log entries 8
and 9). -/
def Obligations.ConstructClearsTheMachine : Prop :=
  State.reset = State.construct 65536 ∧
  ∀ n, (State.construct n).memSize = n ∧ (∀ a, (State.construct n).cell a = 0) ∧ (State.construct n).pc = 0 ∧
    (State.construct n).program = [] ∧ (State.construct n).framed = [] ∧ (State.construct n).running = true

/-- LOAD stores P, frames F, replaces the earlier program entirely, never fails and touches neither memory nor pc nor
the run flag (40_engine.md R90, 70_reset_and_hazards.md R152; what LOAD leaves alone is the spec's decision D13). -/
def Obligations.LoadReplacesOnlyTheProgram : Prop :=
  ∀ (s : State) (bytes : List Byte), ∃ t, transact (.load bytes) s = .next t ∧
    t.program = bytes ∧ t.framed = frame bytes ∧
    t.memSize = s.memSize ∧ t.mem = s.mem ∧ t.pc = s.pc ∧ t.running = s.running ∧
    ∀ earlier, transact (.load bytes) (s.load earlier) = .next t

/-- The memory interface: a read gives the whole cell without any effect, a write replaces the whole cell and no other
(20_memory.md R36), and a request for a cell that does not exist is refused (R33; the refusal is the spec's decision
D20). -/
def Obligations.MemoryInterfaceMovesWholeCellsOrRefuses : Prop :=
  ∀ (s : State) (a v : Nat) (k : Nat → Result),
    (a < s.memSize → s.withCell a k = k (s.cell a) ∧
      ∃ t, s.storeCell a v = .next t ∧ t.cell a = v ∧ (∀ b, b ≠ a → t.cell b = s.cell b) ∧ SameButMemory s t) ∧
    (s.memSize ≤ a → s.withCell a k = .refused (.absentCell a) ∧ s.storeCell a v = .refused (.absentCell a))

/-- Two memories in canonical form that read the same everywhere are equal: the model's representation of `M` adds
nothing to it (the model's choice, log entry 2; 10_state.md R10). -/
def Obligations.CanonicalMemoriesAreDeterminedByTheirReads : Prop :=
  ∀ m m' : Memory, m.wf → m'.wf → (∀ a, m.read a = m'.read a) → m = m'

/-! ## The instructions -/

/-- LDC B C (41_data_movement.md R110): with B in range, `M[B] <- C`; otherwise nothing; never an exception. No other
cell and nothing but memory changes; encoded in 6 bytes as 13 + B*2^5 + C*2^27. LDC is the only instruction that brings
a new value into memory: after any other, every cell holds a value some cell held before (R110, corner case (e)). -/
def Obligations.LdcStoresItsConstant : Prop :=
  (∀ (b c : Nat) (s : State), ∃ t, exec (.ldc b c) s = .next t ∧
    (b < s.memSize → t.cell b = c) ∧ (s.memSize ≤ b → t = s) ∧
    (∀ a, a ≠ b → t.cell a = s.cell a) ∧ SameButMemory s t) ∧
  (∀ b c, b < 2 ^ 22 → c < 2 ^ 16 → encode (.ldc b c) = bytesOfWord 6 (13 + b * 2 ^ 5 + c * 2 ^ 27)) ∧
  encode (.ldc 13 492) = [0xAD, 0x01, 0x00, 0x60, 0x0F, 0x00] ∧
  ∀ (i : Instr) (s t : State) (a : Nat), exec i s = .next t →
    (∃ x, t.cell a = s.cell x) ∨ ∃ c, i = .ldc a c ∧ t.cell a = c

/-- LDM B C (41_data_movement.md R111): with B, C and M[C] in range, `M[B] <- M[M[C]]`, read from memory as it was;
otherwise nothing. That the inner address is checked too is the spec's decision D8 (log entry 10). -/
def Obligations.LdmLoadsThroughItsPointer : Prop :=
  (∀ (b c : Nat) (s : State), ∃ t, exec (.ldm b c) s = .next t ∧
    (b < s.memSize → c < s.memSize → s.cell c < s.memSize → t.cell b = s.cell (s.cell c)) ∧
    (s.memSize ≤ b ∨ s.memSize ≤ c ∨ s.memSize ≤ s.cell c → t = s) ∧
    (∀ a, a ≠ b → t.cell a = s.cell a) ∧ SameButMemory s t) ∧
  (∀ b c, b < 2 ^ 22 → c < 2 ^ 22 → encode (.ldm b c) = bytesOfWord 7 (31 + b * 2 ^ 5 + c * 2 ^ 27)) ∧
  encode (.ldm 5 10) = [0xBF, 0x00, 0x00, 0x50, 0x00, 0x00, 0x00]

/-- STM B C (41_data_movement.md R112): with B and C in range, `M[C] <- M[B]`; otherwise nothing. That the store is
direct is the spec's decision D18 (log entry 11). -/
def Obligations.StmCopiesACell : Prop :=
  (∀ (b c : Nat) (s : State), ∃ t, exec (.stm b c) s = .next t ∧
    (b < s.memSize → c < s.memSize → t.cell c = s.cell b) ∧
    (s.memSize ≤ b ∨ s.memSize ≤ c → t = s) ∧
    (∀ a, a ≠ c → t.cell a = s.cell a) ∧ SameButMemory s t) ∧
  (∀ b c, b < 2 ^ 22 → c < 2 ^ 22 → encode (.stm b c) = bytesOfWord 7 (7 + b * 2 ^ 5 + c * 2 ^ 27)) ∧
  encode (.stm 5 10) = [0xA7, 0x00, 0x00, 0x50, 0x00, 0x00, 0x00]

/-- MAX B C D (42_max.md R120): with B, C and D in range, `M[C] <- max(M[B], M[D])`, the destination in the middle;
otherwise nothing; never an exception. -/
def Obligations.MaxStoresTheLargerCell : Prop :=
  (∀ (b c d : Nat) (s : State), ∃ t, exec (.max b c d) s = .next t ∧
    (b < s.memSize → c < s.memSize → d < s.memSize →
      t.cell c = if s.cell b ≥ s.cell d then s.cell b else s.cell d) ∧
    (s.memSize ≤ b ∨ s.memSize ≤ c ∨ s.memSize ≤ d → t = s) ∧
    (∀ a, a ≠ c → t.cell a = s.cell a) ∧ SameButMemory s t) ∧
  (∀ b c d, b < 2 ^ 22 → c < 2 ^ 22 → d < 2 ^ 22 →
    encode (.max b c d) = bytesOfWord 9 (28 + b * 2 ^ 5 + c * 2 ^ 27 + d * 2 ^ 49)) ∧
  encode (.max 1000 2000 1001) = [0x1C, 0x7D, 0x00, 0x80, 0x3E, 0x00, 0xD2, 0x07, 0x00] ∧
  encode (.max 2000 1000 1001) = [0x1C, 0xFA, 0x00, 0x40, 0x1F, 0x00, 0xD2, 0x07, 0x00]

/-- MAX's value is the mathematical maximum of the two cells: not smaller than either, and one of them; it does not
depend on the order of the sources (42_max.md R121, R122). -/
def Obligations.MaxValueIsTheMathematicalMaximum : Prop :=
  ∀ (b c d : Nat) (s t u : State), b < s.memSize → c < s.memSize → d < s.memSize →
    exec (.max b c d) s = .next t → exec (.max d c b) s = .next u →
    s.cell b ≤ t.cell c ∧ s.cell d ≤ t.cell c ∧ (t.cell c = s.cell b ∨ t.cell c = s.cell d) ∧ t = u

/-- The all-or-nothing bounds rule: any participating address out of range cancels the whole instruction, whichever it
is (40_engine.md R100). That LDM's inner address participates is the spec's decision D8. -/
def Obligations.OutOfRangeAddressCancelsTheInstruction : Prop :=
  ∀ (i : Instr) (s : State), (∃ a ∈ participating i s, s.memSize ≤ a) → exec i s = .next s

/-- What LDC, LDM, STM and MAX leave unchanged: every cell but the destination, MEM_SIZE, the program, the framed
sequence, pc and the run flag (20_memory.md R35, R43; 10_state.md R15, R16). -/
def Obligations.InstructionsWriteOnlyTheirDestination : Prop :=
  ∀ (i : Instr) (s t : State), exec i s = .next t →
    SameButMemory s t ∧ ∀ a, a ≠ destination i → t.cell a = s.cell a

/-- No instruction raises anything; decode cannot fail on a framed instruction, and if it could the step would skip,
not trap (60_exceptions.md R135). The spec defines STEP for a running machine with pc < N only: that step answers a
next state outside the loop as well is the model's choice, log entry 4. -/
def Obligations.NoInstructionRaisesAnException : Prop :=
  (∀ (i : Instr) (s : State), ∃ t, exec i s = .next t) ∧
  (∀ (program slice : List Byte), slice ∈ frame program → ∃ i, decode slice = .ok i) ∧
  (∀ (s : State) (slice : List Byte) (c : DecodeCondition), s.running = true → s.framed[s.pc]? = some slice →
    decode slice = .error c → step s = .next s.advance) ∧
  (∀ s : State, ∃ t, step s = .next t)

/-! ## The step -/

/-- The step: decode F[pc]; if it is an instruction execute it, else skip; then pc <- pc + 1. It writes at most one cell
and always writes pc (40_engine.md R97; the skip is R98's). -/
def Obligations.StepRunsTheDecodedInstruction : Prop :=
  ∀ (s : State) (slice : List Byte), s.running = true → s.framed[s.pc]? = some slice →
    (∀ i, decode slice = .ok i → ∃ t, exec i s = .next t ∧ step s = .next { t with pc := t.pc + 1 } ∧
      ∀ a, a ≠ destination i → t.cell a = s.cell a) ∧
    (∀ c, decode slice = .error c → step s = .next { s with pc := s.pc + 1 })

/-- Every step adds exactly 1 to pc whatever the instruction did; no instruction writes pc; RUN starts it at 0
(10_state.md R15). -/
def Obligations.EveryStepAdvancesPcByOne : Prop :=
  (∀ s : State, s.running = true → s.pc < s.framed.length → ∃ t, step s = .next t ∧ t.pc = s.pc + 1) ∧
  (∀ (i : Instr) (s t : State), exec i s = .next t → t.pc = s.pc) ∧
  (∀ s : State, s.beginRun.pc = 0) ∧ ∀ (s : State) (k : Nat), run { s with pc := k } = run s

/-- A step of a machine whose run is over holds the state: the model's choice (log entry 4), since the spec defines the
step for pc < N only; it rests on 60_exceptions.md, "Between transactions the machine simply holds its state". -/
def Obligations.FinishedRunHoldsItsState : Prop :=
  ∀ s : State, s.running = false ∨ s.framed.length ≤ s.pc → step s = .next s

/-- Stores are never seen by instruction fetch: no instruction, no step and no run writes P or F; F is computed at LOAD
(20_memory.md R43). -/
def Obligations.ProgramIsReadOnlyDuringExecution : Prop :=
  (∀ (i : Instr) (s t : State), exec i s = .next t → t.program = s.program ∧ t.framed = s.framed) ∧
  (∀ s t : State, step s = .next t → t.program = s.program ∧ t.framed = s.framed) ∧
  (∀ s t : State, run s = .next t → t.program = s.program ∧ t.framed = s.framed) ∧
  ∀ (s : State) (bytes : List Byte), (s.load bytes).framed = frame bytes

/-- The next step after placing a table word runs exactly the instruction the decoder reads from it (the model's
arrangement, log entries 5 and 24; 40_engine.md, the load phase and the run phase). -/
def Obligations.PlacedWordIsTheNextInstruction : Prop :=
  ∀ (s : State) (nbits w : Nat) (i : Instr), decodeTableWord nbits w = some i →
    step (s.withFetchWord nbits w) = thenAdvance (exec i (s.withFetchWord nbits w))

/-! ## Invariants -/

/-- A constructed machine is in a legal state, whatever its size (10_state.md R21). -/
def Obligations.ConstructedStateIsLegal : Prop := ∀ n, RunLegal (State.construct n)

/-- Every step keeps the legal states: memory canonical and inside MEM_SIZE, every cell below 2^16, F the framing of P,
pc between 0 and N, the run flag true (10_state.md R12, R13, R14, R16; the reset value of the run flag is the spec's
decision D6). -/
def Obligations.StepKeepsLegalStates : Prop :=
  ∀ s t : State, RunLegal s → step s = .next t → RunLegal t

/-- Whatever transactions the host makes, each answers, and memory and program stay legal; after a RUN pc is in its
legal range again (10_state.md R13, 70_reset_and_hazards.md R157, R162; the host's moves are the spec's decision
D14). -/
def Obligations.SessionsKeepTheMachineLegal : Prop :=
  ∀ (ts : List Transaction) (s : State), MemoryLegal s → ProgramLegal s →
    ∃ t, session ts s = .next t ∧ MemoryLegal t ∧ ProgramLegal t ∧
      ∃ u, transact .run t = .next u ∧ RunLegal u

/-- MEM_SIZE never changes after construction: no step and no transaction but CONSTRUCT writes it (10_state.md R10,
"size never changes after construction"). -/
def Obligations.MemorySizeNeverChanges : Prop :=
  (∀ s t : State, step s = .next t → t.memSize = s.memSize) ∧
  ∀ (tr : Transaction) (s t : State), (∀ n, tr ≠ .construct n) → transact tr s = .next t → t.memSize = s.memSize

/-- The run flag is written by nothing after CONSTRUCT (10_state.md R16). -/
def Obligations.RunningIsNeverWritten : Prop :=
  (∀ s t : State, step s = .next t → t.running = s.running) ∧
  ∀ (tr : Transaction) (s t : State), (∀ n, tr ≠ .construct n) → transact tr s = .next t → t.running = s.running

/-- Cells at 2^22 and above cannot be named by any field and stay 0 for ever (20_memory.md R37, derived there). -/
def Obligations.CellsBeyondTheFieldsStayZero : Prop :=
  ∀ s t : State, (∀ a, 2 ^ 22 ≤ a → s.cell a = 0) → step s = .next t → ∀ a, 2 ^ 22 ≤ a → t.cell a = 0

/-! ## RUN -/

/-- RUN is deterministic and always terminates: exactly N steps, pc passing through 0 to N, the loop condition true
before each and false at the end; the final memory is a function of the initial memory and F alone; with N = 0 no step
is made (40_engine.md R99). The run flag is true on every state a CONSTRUCT leads to (`RunningIsNeverWritten`). -/
def Obligations.RunMakesExactlyOneStepPerFramedInstruction : Prop :=
  (∀ s : State, s.running = true →
    ∃ t, run s = .next t ∧ stepN s.framed.length s.beginRun = .next t ∧ t.pc = s.framed.length ∧ t.inLoop = false ∧
      (∀ k, k < s.framed.length → ∃ u, stepN k s.beginRun = .next u ∧ u.pc = k ∧ u.inLoop = true) ∧
      (s.framed = [] → t.mem = s.mem ∧ t.pc = 0)) ∧
  ∀ s s' t t' : State, s.running = true → s'.running = true → s.memSize = s'.memSize → s.mem = s'.mem →
    s.framed = s'.framed → run s = .next t → run s' = .next t' → t.mem = t'.mem

/-- RUN of a loaded stream of instructions executes them in program order, each on the memory the one before left, each
exactly once (20_memory.md R39, 40_engine.md R101, 30_encoding.md R73). -/
def Obligations.RunExecutesTheProgramInOrder : Prop :=
  ∀ (is : List Instr) (s : State), s.running = true → (∀ i ∈ is, i.wf = true) →
    ∃ t u, run (s.load (encodeAll is)) = .next t ∧ execAll is s = .next u ∧ t.mem = u.mem ∧ t.pc = is.length

/-- The same program from freshly constructed memory of the same size gives the same final state every time, whatever
the machine did before (70_reset_and_hazards.md R156, derived there). -/
def Obligations.RunFromFreshMemoryIsRepeatable : Prop :=
  ∀ (n : Nat) (bytes : List Byte) (s : State), ∃ t,
    session [.construct (some n), .load bytes, .run] s = .next t ∧
    session [.construct (some n), .load bytes, .run, .construct (some n), .load bytes, .run] s = .next t

/-- A machine that frames one instruction at each step, keeping a byte offset beside pc and never reading F, goes
through the same states (40_engine.md R103, derived there; the spec's decision D26). -/
def Obligations.LazyFramingReachesTheSameStates : Prop :=
  ∀ (s t : State) (k : Nat), s.running = true → s.framed = frame s.program → stepN k s.beginRun = .next t →
    ∃ offset, lazySteps k (LazyState.start s) = .next { base := t, offset := offset }

/-! ## DUMP -/

/-- DUMP reports exactly the nonzero cells of [start, min(end, MEM_SIZE)), one value per key, and changes no state
(20_memory.md R44). -/
def Obligations.DumpReportsExactlyTheNonzeroCells : Prop :=
  ∀ (s : State) (start stop : Nat),
    (∀ key v, (key, v) ∈ dump s start stop ↔
      ∃ a, start ≤ a ∧ a < min stop s.memSize ∧ s.cell a = v ∧ v ≠ 0 ∧ key = dumpKey a) ∧
    ((dump s start stop).map Prod.fst).Nodup ∧
    transact (.dump (some (start, stop))) s = .next s ∧
    answer (.dump (some (start, stop))) s = some (dump s start stop) ∧
    (min stop s.memSize ≤ start → dump s start stop = [])

/-- Keys are decimal numerals: digits only, the value of the address, no leading zero but "0" itself (20_memory.md R45,
the spec's decision D21); the range is (0, 100) where the host gives none (R46). -/
def Obligations.DumpKeysAreDecimalNumerals : Prop :=
  (∀ a, dumpKey a = String.ofList (decimalNumeral a) ∧ decimalNumeral a ≠ [] ∧
    (∀ c ∈ decimalNumeral a, c.isDigit = true) ∧ digitsValue (decimalNumeral a) = a ∧
    ((decimalNumeral a).head? = some '0' → decimalNumeral a = ['0'])) ∧
  ∀ s : State, answer (.dump none) s = some (dump s 0 100)

/-- On legal memory DUMP is the listed cells of the range: the model's representation gives the read-out directly (the
model's choice, log entries 2 and 19; 20_memory.md, the host read-out). -/
def Obligations.DumpListsTheCanonicalCells : Prop :=
  ∀ (s : State) (start stop : Nat), MemoryLegal s →
    dump s start stop =
      (s.mem.filter fun cell => decide (start ≤ cell.1 ∧ cell.1 < stop)).map fun cell => (dumpKey cell.1, cell.2)

/-! ## The assembler -/

/-- Instructions written one to a line as the spec writes them assemble to the concatenation of their encodings,
whatever their operands (30_encoding.md R69, R73, R74; the written form is presentation, log entry 25). -/
def Obligations.WrittenInstructionsAssemble : Prop :=
  ∀ is : List Instr, assembleChars (renderAll is) = .ok (encodeAll is)

/-- Any text that assembles gives the encodings of its lowered lines, concatenated without padding, and that stream
frames back into exactly those instructions (30_encoding.md R72, R73). -/
def Obligations.AssembledStreamsFrameToTheirLines : Prop :=
  ∀ (text : List Char) (bytes : List Byte), assembleChars text = .ok bytes →
    ∃ srcs is, parseSource text = .ok srcs ∧ lowerAll srcs = .ok is ∧ bytes = encodeAll is ∧
      frame bytes = is.map encode ∧ is.length = srcs.length ∧
      ∀ (k : Nat) (src : SourceInstr) (i : Instr), srcs[k]? = some src → is[k]? = some i →
        i.opcode = src.opcode ∧ operandsOf i = src.operands

/-- A parse error on any line is reported in preference to an arity error on any line (30_encoding.md R72; the priority
is the spec's decision D17). -/
def Obligations.ParseErrorsPrecedeArityErrors : Prop :=
  ∀ (text : List Char) (e : AsmError), assembleChars text = .error e →
    (parseSource text = .error e ∧ e.condition ≠ .arityMismatch) ∨
    ((∃ srcs, parseSource text = .ok srcs) ∧ e.condition = .arityMismatch)

/-- An assembly error names a line of the text (30_encoding.md R70, R72; lines are counted from 1 by the spec's decision
D22), and MalformedOperand the offending token of that line (R70), a token that is no integer as decision D16 reads
integers. R71 and R130 give UnknownMnemonic line context only: that it carries its token too is the model's choice, log
entry 18. -/
def Obligations.AssemblyErrorsNameTheirLineAndToken : Prop :=
  ∀ (text : List Char) (e : AsmError), assembleChars text = .error e →
    ∃ source, (splitAtAll isLineFeed text)[e.line - 1]? = some source ∧ 1 ≤ e.line ∧
      match e with
      | .malformedOperand _ token => token ∈ (tokensOf source).tail ∧ parseOperand token = none
      | .unknownMnemonic _ token => (tokensOf source).head? = some token ∧ opcodeOfMnemonic token = none
      | .arityMismatch _ =>
        ∃ mnemonic op, (tokensOf source).head? = some mnemonic ∧ opcodeOfMnemonic mnemonic = some op ∧
          (tokensOf source).tail.length ≠ op.arity

/-- A trailing comment is discarded, with or without white space before its `#` (30_encoding.md R67, the spec's decision
D22); the text before it must not end in a carriage return, which only the end of a line strips (log entry 17). -/
def Obligations.TrailingCommentsAreDiscarded : Prop :=
  ∀ (n : Nat) (line comment : List Char), '#' ∉ line → line.getLast? ≠ some '\r' →
    parseLine n (line ++ '#' :: comment) = parseLine n line

/-- Mnemonics are case-insensitive and name exactly the four opcodes (30_encoding.md R68). -/
def Obligations.MnemonicsAreCaseInsensitive : Prop :=
  (∀ token : List Char, opcodeOfMnemonic (token.map Char.toLower) = opcodeOfMnemonic token ∧
    opcodeOfMnemonic (token.map Char.toUpper) = opcodeOfMnemonic token) ∧
  (∀ (token : List Char) (op : Opcode), opcodeOfMnemonic token = some op ↔
    token.map Char.toUpper = opcodeName op)

/-- Of the five conditions the assembly-time ones are fatal and the load-time ones are not (60_exceptions.md R130, R133).
An error of parsing or of lowering is the answer of the assembler, and the first failing line or IR instruction aborts
it whatever follows (the order is the spec's decision D17). LOAD answers a machine that holds the program whatever
`decode` signals: a truncated tail ends F after the instructions framed before it, an unrecognised byte is passed over
(R131, R132). `Condition.fatal` only names this difference. -/
def Obligations.OnlyAssemblyConditionsAreFatal : Prop :=
  (∀ (text : List Char) (e : AsmError),
    (parseSource text = .error e ∨ ∃ srcs, parseSource text = .ok srcs ∧ lowerAll srcs = .error e) →
      assembleChars text = .error e ∧ e.condition.fatal = true) ∧
  (∀ (text line : List Char) (before after : List (List Char)) (parsed : List SourceInstr) (e : AsmError),
    splitAtAll isLineFeed text = before ++ line :: after → parseLines 1 before = .ok parsed →
      parseLine (before.length + 1) line = .error e → assembleChars text = .error e) ∧
  (∀ (text : List Char) (before after : List SourceInstr) (src : SourceInstr) (lowered : List Instr),
    parseSource text = .ok (before ++ src :: after) → lowerAll before = .ok lowered →
      src.operands.length ≠ src.opcode.arity → assembleChars text = .error (.arityMismatch src.line)) ∧
  (∀ (s : State) (bytes : List Byte), ∃ t, transact (.load bytes) s = .next t ∧ t.program = bytes ∧
    ∀ (is : List Instr) (tail : List Byte) (c : DecodeCondition), bytes = encodeAll is ++ tail →
      decode tail = .error c → (conditionOfDecode c).fatal = false ∧
        t.framed = is.map encode ++
          match c with
          | .truncatedInstruction => []
          | .unknownOpcode => frame tail.tail) ∧
  ∀ c : Condition, (∃ e : AsmError, e.condition = c) ∨ ∃ d, conditionOfDecode d = c
end

