-- ==== Sys2Proof/Laws/Codec.lean ====
section
/-! SUPPORT. The Codec's helpers: fields as division and remainder, words as sums, bytes and words back and forth. -/

namespace Sys2Proof

theorem Field.extract_eq (f : Field) (w : Nat) : f.extract w = w / 2 ^ f.offset % 2 ^ f.width := by
  rw [Field.extract, Nat.shiftRight_eq_div_pow, Nat.and_two_pow_sub_one_eq_mod]

theorem Field.place_eq (f : Field) (v : Nat) : f.place v = v % 2 ^ f.width * 2 ^ f.offset := by
  rw [Field.place, Field.wrap, Nat.shiftLeft_eq]

theorem or_shift_eq_add {x y k : Nat} (h : x < 2 ^ k) : x ||| y * 2 ^ k = x + y * 2 ^ k := by
  rw [Nat.or_comm, Nat.mul_comm, ← Nat.two_pow_add_eq_or_of_lt h, Nat.add_comm]

/-- A tag and two fields side by side do not overlap. -/
theorem or_fields_eq_add {t b c : Nat} (ht : t < 2 ^ 5) (hb : b < 2 ^ 22) :
    t ||| b * 2 ^ 5 ||| c * 2 ^ 27 = t + b * 2 ^ 5 + c * 2 ^ 27 := by
  rw [or_shift_eq_add ht, or_shift_eq_add (by omega)]

/-- The word of the instruction as the sum 30_encoding.md R52 gives. -/
theorem word_ldc (b c : Nat) :
    (Instr.ldc b c).word = 13 + b % 2 ^ 22 * 2 ^ 5 + c % 2 ^ 16 * 2 ^ 27 := by
  simp only [Instr.word, Field.place_eq, fieldB, fieldC16, Opcode.tag]
  exact or_fields_eq_add (by decide) (Nat.mod_lt _ (by decide))

/-- The word of the instruction as the sum 30_encoding.md R53 gives. -/
theorem word_ldm (b c : Nat) :
    (Instr.ldm b c).word = 31 + b % 2 ^ 22 * 2 ^ 5 + c % 2 ^ 22 * 2 ^ 27 := by
  simp only [Instr.word, Field.place_eq, fieldB, fieldC22, Opcode.tag]
  exact or_fields_eq_add (by decide) (Nat.mod_lt _ (by decide))

/-- The word of the instruction as the sum 30_encoding.md R54 gives. -/
theorem word_stm (b c : Nat) :
    (Instr.stm b c).word = 7 + b % 2 ^ 22 * 2 ^ 5 + c % 2 ^ 22 * 2 ^ 27 := by
  simp only [Instr.word, Field.place_eq, fieldB, fieldC22, Opcode.tag]
  exact or_fields_eq_add (by decide) (Nat.mod_lt _ (by decide))

/-- The word of the instruction as the sum 30_encoding.md R55 gives. -/
theorem word_max (b c d : Nat) :
    (Instr.max b c d).word = 28 + b % 2 ^ 22 * 2 ^ 5 + c % 2 ^ 22 * 2 ^ 27 + d % 2 ^ 22 * 2 ^ 49 := by
  simp only [Instr.word, Field.place_eq, fieldB, fieldC22, fieldD, Opcode.tag]
  rw [or_fields_eq_add (by decide) (Nat.mod_lt _ (by decide)), or_shift_eq_add (by omega)]

theorem tagOf_eq (b : Byte) : tagOf b = b.toNat % 32 := Nat.and_two_pow_sub_one_eq_mod b.toNat 5

@[simp] theorem bytesOfWord_length (n w : Nat) : (bytesOfWord n w).length = n := by
  induction n generalizing w with
  | zero => rfl
  | succ n ih => simp [bytesOfWord, ih]

/-- The bytes of a word read back give the word reduced to that many bytes. -/
theorem littleEndian_bytesOfWord (n w : Nat) : littleEndian (bytesOfWord n w) = w % 256 ^ n := by
  induction n generalizing w with
  | zero => simp [bytesOfWord, littleEndian, Nat.mod_one]
  | succ n ih =>
    rw [bytesOfWord, littleEndian, ih, BitVec.toNat_ofNat, Nat.pow_succ (m := n), Nat.mul_comm (256 ^ n) 256, Nat.mod_mul]

/-- A word of bytes is below 256 to their number. -/
theorem littleEndian_lt (s : List Byte) : littleEndian s < 256 ^ s.length := by
  induction s with
  | nil => simp [littleEndian]
  | cons b rest ih =>
    have := b.isLt
    simp only [littleEndian, List.length_cons, Nat.pow_succ]
    omega

/-- The bytes of the word of some bytes are those bytes. -/
theorem bytesOfWord_littleEndian (s : List Byte) : bytesOfWord s.length (littleEndian s) = s := by
  induction s with
  | nil => rfl
  | cons b rest ih =>
    have hb : b.toNat < 256 := b.isLt
    have hdiv : (b.toNat + 256 * littleEndian rest) / 256 = littleEndian rest := by omega
    simp only [List.length_cons, bytesOfWord, littleEndian, hdiv, ih]
    congr 1
    apply BitVec.eq_of_toNat_eq
    rw [BitVec.toNat_ofNat]
    omega

@[simp] theorem encode_length (i : Instr) : (encode i).length = i.opcode.length := by simp [encode]

/-- The first byte of an encoding holds the opcode's tag in its low 5 bits. -/
theorem tag_of_encode (i : Instr) : i.word % 32 = i.opcode.tag := by
  cases i with
  | ldc b c => rw [word_ldc]; simp only [Instr.opcode, Opcode.tag]; omega
  | ldm b c => rw [word_ldm]; simp only [Instr.opcode, Opcode.tag]; omega
  | stm b c => rw [word_stm]; simp only [Instr.opcode, Opcode.tag]; omega
  | max b c d => rw [word_max]; simp only [Instr.opcode, Opcode.tag]; omega

@[simp] theorem opcodeOfTag_tag (op : Opcode) : opcodeOfTag op.tag = some op := by cases op <;> rfl

theorem opcode_length_pos (op : Opcode) : 0 < op.length := by cases op <;> decide

theorem tag_of_opcodeOfTag {tag : Nat} {op : Opcode} (h : opcodeOfTag tag = some op) : tag = op.tag := by
  unfold opcodeOfTag at h
  split at h
  · cases h; assumption
  · split at h
    · cases h; assumption
    · split at h
      · cases h; assumption
      · split at h
        · cases h; assumption
        · cases h

theorem lengthOfTag_of_opcode {first : Byte} {op : Opcode} (h : opcodeOfByte first = some op) :
    lengthOfTag (tagOf first) = some op.length := by
  rw [opcodeOfByte] at h
  rw [lengthOfTag, h, Option.map_some]

@[simp] theorem instrOfWord_opcode (op : Opcode) (w : Nat) : (instrOfWord op w).opcode = op := by cases op <;> rfl

/-- What `decode` can answer: it is an instruction exactly when a recognised tag is followed by enough bytes, and then
it is the one of the word of its first bytes. -/
theorem decode_eq_ok {s : List Byte} {i : Instr} (h : decode s = .ok i) :
    ∃ op first rest, s = first :: rest ∧ opcodeOfByte first = some op ∧ op.length ≤ s.length ∧
      i = instrOfWord op (littleEndian (s.take op.length)) := by
  cases s with
  | nil => cases h
  | cons first rest =>
    simp only [decode] at h
    split at h
    · cases h
    · next op hop =>
      split at h
      · cases h
      · next hlen => exact ⟨op, first, rest, rfl, hop, Nat.not_lt.mp hlen, (Except.ok.inj h).symm⟩

/-- The operand count `Instr.ofOperands` accepts is the opcode's arity. -/
theorem ofOperands_isSome (op : Opcode) (vs : List Nat) :
    (Instr.ofOperands op vs).isSome = true ↔ vs.length = op.arity := by
  rcases vs with _ | ⟨b, _ | ⟨c, _ | ⟨d, _ | ⟨e, rest⟩⟩⟩⟩ <;> cases op <;> simp [Instr.ofOperands, Opcode.arity]

end Sys2Proof
end

