-- ==== Sys2Proof/Laws/Framer.lean ====
section
/-! SUPPORT. The framer's scan, one case at a time. -/

namespace Sys2Proof.Machine

/-- Passing over bytes of a recorded instruction is dropping them. -/
theorem frameFrom_eq_drop (skip : Nat) (s : List Byte) : frameFrom skip s = frame (s.drop skip) := by
  induction s generalizing skip with
  | nil => cases skip <;> simp [frameFrom, frame]
  | cons first rest ih =>
    cases skip with
    | zero => rfl
    | succ k => rw [frameFrom, ih, List.drop_succ_cons]

@[simp] theorem frame_nil : frame [] = [] := rfl

/-- An unrecognised tag: one byte is skipped. -/
theorem frame_cons_unknown {first : Byte} (rest : List Byte) (h : lengthOfTag (tagOf first) = none) :
    frame (first :: rest) = frame rest := by
  rw [frame, frameFrom]
  simp [h, frame]

/-- A recognised tag with too few bytes left: the scan stops. -/
theorem frame_cons_truncated {first : Byte} {rest : List Byte} {n : Nat} (h : lengthOfTag (tagOf first) = some n)
    (hlen : (first :: rest).length < n) : frame (first :: rest) = [] := by
  rw [frame, frameFrom]
  simp only [h, if_pos hlen]

theorem lengthOfTag_pos {tag n : Nat} (h : lengthOfTag tag = some n) : 0 < n := by
  rw [lengthOfTag, Option.map_eq_some_iff] at h
  obtain ⟨op, -, rfl⟩ := h
  exact opcode_length_pos op

/-- A recognised tag with enough bytes: its slice is recorded and the scan goes on after it. -/
theorem frame_cons_recorded {first : Byte} {rest : List Byte} {n : Nat} (h : lengthOfTag (tagOf first) = some n)
    (hlen : n ≤ (first :: rest).length) :
    frame (first :: rest) = (first :: rest).take n :: frame ((first :: rest).drop n) := by
  obtain ⟨k, rfl⟩ : ∃ k, n = k + 1 := ⟨n - 1, by have := lengthOfTag_pos h; omega⟩
  rw [frame, frameFrom]
  simp only [h, if_neg (Nat.not_lt.mpr hlen), Nat.add_sub_cancel, frameFrom_eq_drop, List.drop_succ_cons]

/-- Induction along the framer's scan: one case per thing that can happen at an offset. -/
theorem frame_scan_induction {motive : List Byte → Prop} (nil : motive [])
    (unknown : ∀ first rest, lengthOfTag (tagOf first) = none → motive rest → motive (first :: rest))
    (truncated : ∀ first rest n, lengthOfTag (tagOf first) = some n → (first :: rest).length < n →
      motive (first :: rest))
    (recorded : ∀ first rest n, lengthOfTag (tagOf first) = some n → n ≤ (first :: rest).length →
      motive ((first :: rest).drop n) → motive (first :: rest)) (s : List Byte) : motive s := by
  induction h : s.length using Nat.strong_induction_on generalizing s with
  | _ k ih =>
    cases s with
    | nil => exact nil
    | cons first rest =>
      rw [List.length_cons] at h
      cases hl : lengthOfTag (tagOf first) with
      | none => exact unknown first rest hl (ih rest.length (by omega) rest rfl)
      | some n =>
        by_cases hn : (first :: rest).length < n
        · exact truncated first rest n hl hn
        · have hpos := lengthOfTag_pos hl
          refine recorded first rest n hl (Nat.not_lt.mp hn) (ih _ ?_ _ rfl)
          rw [List.length_drop, List.length_cons]
          omega

end Sys2Proof.Machine
end

