-- ==== Sys2Proof/Laws/Memory.lean ====
section
/-! SUPPORT. The laws of memory: a read after a write, and that every memory operation keeps the canonical form. -/

namespace Sys2Proof.Machine

@[simp] theorem Memory.read_nil (a : Nat) : Memory.read [] a = 0 := rfl

theorem Memory.read_cons (b v : Nat) (rest : Memory) (a : Nat) :
    Memory.read ((b, v) :: rest) a = if a = b then v else Memory.read rest a := rfl

theorem Memory.read_eq_zero_of_forall_ne {m : Memory} {a : Nat} (h : ∀ cell ∈ m, cell.1 ≠ a) : m.read a = 0 := by
  induction m with
  | nil => rfl
  | cons cell rest ih =>
    obtain ⟨b, v⟩ := cell
    have hb : a ≠ b := fun e => h (b, v) List.mem_cons_self e.symm
    rw [Memory.read_cons, if_neg hb]
    exact ih fun c hc => h c (List.mem_cons_of_mem _ hc)

theorem Memory.read_erase_same (m : Memory) (a : Nat) : (m.erase a).read a = 0 := by
  apply Memory.read_eq_zero_of_forall_ne
  intro cell hc
  simpa [Memory.erase] using (List.mem_filter.mp hc).2

theorem Memory.read_erase_other {a b : Nat} (m : Memory) (h : b ≠ a) : (m.erase a).read b = m.read b := by
  induction m with
  | nil => rfl
  | cons cell rest ih =>
    obtain ⟨c, v⟩ := cell
    by_cases hc : c = a
    · subst hc
      simpa [Memory.erase, Memory.read_cons, h] using ih
    · have : Memory.erase ((c, v) :: rest) a = (c, v) :: Memory.erase rest a := by simp [Memory.erase, hc]
      rw [this, Memory.read_cons, Memory.read_cons, ih]

theorem Memory.mem_insert {m : Memory} {a v : Nat} {cell : Nat × Nat} :
    cell ∈ m.insert a v ↔ cell = (a, v) ∨ cell ∈ m := by
  induction m with
  | nil => simp [Memory.insert]
  | cons c rest ih =>
    obtain ⟨b, w⟩ := c
    by_cases hab : a < b
    · simp [Memory.insert, hab]
    · simp only [Memory.insert, hab, if_false, List.mem_cons, ih]
      tauto

theorem Memory.read_insert_same {m : Memory} {a : Nat} (v : Nat) (h : ∀ cell ∈ m, cell.1 ≠ a) :
    (m.insert a v).read a = v := by
  induction m with
  | nil => simp [Memory.insert, Memory.read]
  | cons c rest ih =>
    obtain ⟨b, w⟩ := c
    have hb : a ≠ b := fun e => h (b, w) List.mem_cons_self e.symm
    by_cases hab : a < b
    · simp [Memory.insert, hab, Memory.read_cons]
    · rw [Memory.insert, if_neg hab, Memory.read_cons, if_neg hb]
      exact ih fun c hc => h c (List.mem_cons_of_mem _ hc)

theorem Memory.read_insert_other {a b : Nat} (m : Memory) (v : Nat) (h : b ≠ a) :
    (m.insert a v).read b = m.read b := by
  induction m with
  | nil => simp [Memory.insert, Memory.read, h]
  | cons c rest ih =>
    obtain ⟨d, w⟩ := c
    by_cases had : a < d
    · simp [Memory.insert, had, Memory.read_cons, h]
    · rw [Memory.insert, if_neg had, Memory.read_cons, Memory.read_cons, ih]

theorem Memory.forall_ne_erase (m : Memory) (a : Nat) : ∀ cell ∈ m.erase a, cell.1 ≠ a := by
  intro cell hc
  simpa [Memory.erase] using (List.mem_filter.mp hc).2

/-- A read of the cell just written gives the value written. -/
theorem Memory.read_write_same (m : Memory) (a v : Nat) : (m.write a v).read a = v := by
  by_cases hv : v = 0
  · simp [Memory.write, hv, Memory.read_erase_same]
  · simp only [Memory.write, hv, if_false]
    exact Memory.read_insert_same v (Memory.forall_ne_erase m a)

/-- A write leaves every other cell alone. -/
theorem Memory.read_write_other {a b : Nat} (m : Memory) (v : Nat) (h : b ≠ a) : (m.write a v).read b = m.read b := by
  by_cases hv : v = 0
  · simp [Memory.write, hv, Memory.read_erase_other m h]
  · simp only [Memory.write, hv, if_false]
    rw [Memory.read_insert_other _ _ h, Memory.read_erase_other m h]

theorem Memory.read_write (m : Memory) (a v b : Nat) : (m.write a v).read b = if b = a then v else m.read b := by
  by_cases h : b = a
  · rw [h, if_pos rfl, Memory.read_write_same]
  · rw [if_neg h, Memory.read_write_other m v h]

theorem Memory.wf_nil : Memory.wf [] := by decide

theorem Memory.wf_erase {m : Memory} (h : m.wf) (a : Nat) : (m.erase a).wf :=
  ⟨h.1.filter _, fun cell hc => h.2 cell (List.mem_filter.mp hc).1⟩

theorem Memory.pairwise_insert {m : Memory} {a : Nat} (v : Nat) (h : m.Pairwise (fun x y => x.1 < y.1))
    (hne : ∀ cell ∈ m, cell.1 ≠ a) : (m.insert a v).Pairwise (fun x y => x.1 < y.1) := by
  induction m with
  | nil => simp [Memory.insert]
  | cons c rest ih =>
    obtain ⟨b, w⟩ := c
    have hrest := List.pairwise_cons.mp h
    have hb : b ≠ a := hne (b, w) List.mem_cons_self
    by_cases hab : a < b
    · rw [Memory.insert, if_pos hab]
      refine List.pairwise_cons.mpr ⟨fun x hx => ?_, h⟩
      rcases List.mem_cons.mp hx with rfl | hx
      · exact hab
      · exact lt_trans hab (hrest.1 x hx)
    · rw [Memory.insert, if_neg hab]
      refine List.pairwise_cons.mpr ⟨fun x hx => ?_, ih hrest.2 fun c hc => hne c (List.mem_cons_of_mem _ hc)⟩
      rcases Memory.mem_insert.mp hx with rfl | hx
      · show b < a
        omega
      · exact hrest.1 x hx

/-- Every write keeps the canonical form. -/
theorem Memory.wf_write {m : Memory} (h : m.wf) (a v : Nat) : (m.write a v).wf := by
  by_cases hv : v = 0
  · simpa [Memory.write, hv] using Memory.wf_erase h a
  · have he := Memory.wf_erase h a
    simp only [Memory.write, hv, if_false]
    refine ⟨Memory.pairwise_insert v he.1 (Memory.forall_ne_erase m a), fun cell hc => ?_⟩
    rcases Memory.mem_insert.mp hc with rfl | hc
    · exact hv
    · exact he.2 cell hc

/-- A cell listed after a write is the one written or was listed before. -/
theorem Memory.mem_write {m : Memory} {a v : Nat} {cell : Nat × Nat} (h : cell ∈ m.write a v) :
    cell = (a, v) ∨ cell ∈ m := by
  by_cases hv : v = 0
  · simp only [Memory.write, hv, if_true] at h
    exact .inr (List.mem_filter.mp h).1
  · simp only [Memory.write, hv, if_false] at h
    rcases Memory.mem_insert.mp h with rfl | h
    · exact .inl rfl
    · exact .inr (List.mem_filter.mp h).1

/-- A cell read as nonzero is listed. -/
theorem Memory.mem_of_read_ne_zero {m : Memory} {a : Nat} (h : m.read a ≠ 0) : (a, m.read a) ∈ m := by
  induction m with
  | nil => exact absurd rfl h
  | cons c rest ih =>
    obtain ⟨b, w⟩ := c
    rw [Memory.read_cons] at h ⊢
    by_cases hab : a = b
    · simp [hab]
    · rw [if_neg hab] at h ⊢
      exact List.mem_cons_of_mem _ (ih h)

/-- Memory at reset has the canonical form. -/
theorem State.construct_mem_wf (n : Nat) : (State.construct n).mem.wf := Memory.wf_nil

end Sys2Proof.Machine
end

