-- ==== Sys2Proof/Laws/State.lean ====
section
/-! SUPPORT. One lemma per field per named update of the state, true by definition, so that no proof unfolds a record
update. -/

namespace Sys2Proof.Machine

@[simp] theorem State.setMem_memSize (s : State) (m : Memory) : (s.setMem m).memSize = s.memSize := rfl
@[simp] theorem State.setMem_mem (s : State) (m : Memory) : (s.setMem m).mem = m := rfl
@[simp] theorem State.setMem_program (s : State) (m : Memory) : (s.setMem m).program = s.program := rfl
@[simp] theorem State.setMem_framed (s : State) (m : Memory) : (s.setMem m).framed = s.framed := rfl
@[simp] theorem State.setMem_pc (s : State) (m : Memory) : (s.setMem m).pc = s.pc := rfl
@[simp] theorem State.setMem_running (s : State) (m : Memory) : (s.setMem m).running = s.running := rfl

@[simp] theorem State.advance_memSize (s : State) : s.advance.memSize = s.memSize := rfl
@[simp] theorem State.advance_mem (s : State) : s.advance.mem = s.mem := rfl
@[simp] theorem State.advance_program (s : State) : s.advance.program = s.program := rfl
@[simp] theorem State.advance_framed (s : State) : s.advance.framed = s.framed := rfl
@[simp] theorem State.advance_pc (s : State) : s.advance.pc = s.pc + 1 := rfl
@[simp] theorem State.advance_running (s : State) : s.advance.running = s.running := rfl

@[simp] theorem State.load_memSize (s : State) (b : List Byte) : (s.load b).memSize = s.memSize := rfl
@[simp] theorem State.load_mem (s : State) (b : List Byte) : (s.load b).mem = s.mem := rfl
@[simp] theorem State.load_program (s : State) (b : List Byte) : (s.load b).program = b := rfl
@[simp] theorem State.load_framed (s : State) (b : List Byte) : (s.load b).framed = frame b := rfl
@[simp] theorem State.load_pc (s : State) (b : List Byte) : (s.load b).pc = s.pc := rfl
@[simp] theorem State.load_running (s : State) (b : List Byte) : (s.load b).running = s.running := rfl

@[simp] theorem State.beginRun_memSize (s : State) : s.beginRun.memSize = s.memSize := rfl
@[simp] theorem State.beginRun_mem (s : State) : s.beginRun.mem = s.mem := rfl
@[simp] theorem State.beginRun_program (s : State) : s.beginRun.program = s.program := rfl
@[simp] theorem State.beginRun_framed (s : State) : s.beginRun.framed = s.framed := rfl
@[simp] theorem State.beginRun_pc (s : State) : s.beginRun.pc = 0 := rfl
@[simp] theorem State.beginRun_running (s : State) : s.beginRun.running = s.running := rfl

@[simp] theorem State.construct_memSize (n : Nat) : (State.construct n).memSize = n := rfl
@[simp] theorem State.construct_mem (n : Nat) : (State.construct n).mem = [] := rfl
@[simp] theorem State.construct_program (n : Nat) : (State.construct n).program = [] := rfl
@[simp] theorem State.construct_framed (n : Nat) : (State.construct n).framed = [] := rfl
@[simp] theorem State.construct_pc (n : Nat) : (State.construct n).pc = 0 := rfl
@[simp] theorem State.construct_running (n : Nat) : (State.construct n).running = true := rfl

@[simp] theorem thenAdvance_next (s : State) : thenAdvance (.next s) = .next s.advance := rfl
@[simp] theorem thenAdvance_fault (r : Fault) : thenAdvance (.fault r) = .fault r := rfl
@[simp] theorem thenAdvance_refused (r : Refusal) : thenAdvance (.refused r) = .refused r := rfl

end Sys2Proof.Machine
end

