-- ==== Sys2Proof/Laws/Ops.lean ====
section
/-! SUPPORT. One spec lemma per shared operation: everything it can do. Proofs cite these and unfold nothing. -/

namespace Sys2Proof.Machine

@[simp] theorem State.inRange_iff {s : State} {a : Nat} : s.inRange a = true ↔ a < s.memSize := by
  simp [State.inRange]

theorem State.cell_setMem_write (s : State) (a v b : Nat) :
    (s.setMem (s.mem.write a v)).cell b = if b = a then v else s.cell b :=
  Memory.read_write s.mem a v b

/-- The memory interface answers a request for a cell that exists. -/
theorem State.memRead_of_lt {s : State} {a : Nat} (h : a < s.memSize) : s.memRead a = some (s.cell a) := by
  simp [State.memRead, h]

theorem State.memRead_of_not_lt {s : State} {a : Nat} (h : ¬ a < s.memSize) : s.memRead a = none := by
  simp [State.memRead, h]

theorem State.withCell_of_lt {s : State} {a : Nat} (h : a < s.memSize) (k : Nat → Result) :
    s.withCell a k = k (s.cell a) := by
  simp [State.withCell, State.memRead_of_lt h]

theorem State.storeCell_of_lt {s : State} {a : Nat} (h : a < s.memSize) (v : Nat) :
    s.storeCell a v = .next (s.setMem (s.mem.write a v)) := by
  simp [State.storeCell, h]

/-- The bounds rule: the effect where all participating addresses are in range, else nothing. -/
theorem State.whenAllInRange_eq (s : State) (as : List Nat) (effect : Result) :
    s.whenAllInRange as effect = if ∀ a ∈ as, a < s.memSize then effect else .next s := by
  simp only [State.whenAllInRange, List.all_eq_true, State.inRange_iff]

/-- What a move of a source operand into a cell does, once for LDC, LDM and STM: the operand is in range exactly when
it has a value, and then that value is written; otherwise nothing happens. -/
theorem State.moveInto_immediate (s : State) (dst v : Nat) :
    s.moveInto dst (.immediate v) = .next (if dst < s.memSize then s.setMem (s.mem.write dst v) else s) := by
  rw [State.moveInto, State.whenAllInRange_eq]
  by_cases h : dst < s.memSize
  · simp [Operand.participating, Operand.withValue, h, State.storeCell_of_lt]
  · simp [Operand.participating, h]

theorem State.moveInto_direct (s : State) (dst a : Nat) :
    s.moveInto dst (.direct a) =
      .next (if dst < s.memSize ∧ a < s.memSize then s.setMem (s.mem.write dst (s.cell a)) else s) := by
  rw [State.moveInto, State.whenAllInRange_eq]
  by_cases h : dst < s.memSize ∧ a < s.memSize
  · simp [Operand.participating, Operand.withValue, h, State.storeCell_of_lt, State.withCell_of_lt]
  · simp [Operand.participating, h]

theorem State.moveInto_indirect (s : State) (dst a : Nat) :
    s.moveInto dst (.indirect a) =
      .next (if dst < s.memSize ∧ a < s.memSize ∧ s.cell a < s.memSize
        then s.setMem (s.mem.write dst (s.cell (s.cell a))) else s) := by
  rw [State.moveInto, State.whenAllInRange_eq]
  by_cases ha : a < s.memSize
  · by_cases h : dst < s.memSize ∧ s.cell a < s.memSize
    · simp [Operand.participating, Operand.withValue, ha, h, State.memRead_of_lt, State.storeCell_of_lt,
        State.withCell_of_lt]
    · simp [Operand.participating, ha, h, State.memRead_of_lt]
  · simp [Operand.participating, ha]

theorem State.combineInto_direct (s : State) (dst a b : Nat) (f : Nat → Nat → Nat) :
    s.combineInto dst (.direct a) (.direct b) f =
      .next (if dst < s.memSize ∧ a < s.memSize ∧ b < s.memSize
        then s.setMem (s.mem.write dst (f (s.cell a) (s.cell b))) else s) := by
  rw [State.combineInto, State.whenAllInRange_eq]
  by_cases h : dst < s.memSize ∧ a < s.memSize ∧ b < s.memSize
  · simp [Operand.participating, Operand.withValue, h, State.storeCell_of_lt, State.withCell_of_lt]
  · simp [Operand.participating, h]

theorem largerOf_eq_max (p q : Nat) : largerOf p q = Nat.max p q := by
  simp only [largerOf, Nat.max_def]
  split <;> split <;> omega

/-- While the loop condition holds, the step fetches `F[pc]`. -/
theorem State.fetch_of_inLoop {s : State} (h : s.inLoop = true) : s.fetch = s.framed[s.pc]? := by
  simp [State.fetch, h]

/-- Once the run is over nothing is fetched. -/
theorem State.fetch_of_not_inLoop {s : State} (h : s.inLoop = false) : s.fetch = none := by
  simp [State.fetch, h]

theorem State.inLoop_iff {s : State} : s.inLoop = true ↔ s.running = true ∧ s.pc < s.framed.length := by
  simp [State.inLoop]

/-- Advancing pc changes nothing of the outcome but pc. -/
theorem thenAdvance_eq_next {r : Result} {t : State} (h : thenAdvance r = .next t) :
    ∃ s, r = .next s ∧ t = s.advance := by
  cases r with
  | next s => exact ⟨s, rfl, (Host.Outcome.next.inj h).symm⟩
  | fault r => cases h
  | refused r => cases h

end Sys2Proof.Machine
end

