-- ==== Sys2Proof/Laws/PerInstr.lean ====
section
/-! SUPPORT. Per-instruction facts, one lemma per constructor of `Instr`: the shape of each encoding. -/

namespace Sys2Proof.Laws.EncodeShape

/-- The encoding has the opcode's length, its first byte carries the opcode's tag, and every pad bit is 0
(30_encoding.md R51, R56, R61). -/
def Statement (i : Instr) : Prop :=
  (encode i).length = i.opcode.length ∧ i.word % 32 = i.opcode.tag ∧
    i.word < 2 ^ (8 * i.opcode.length - i.opcode.padBits)

theorem ldc (b c : Nat) : Statement (.ldc b c) := by
  refine ⟨encode_length _, tag_of_encode _, ?_⟩
  rw [word_ldc]
  simp only [Instr.opcode, Opcode.length, Opcode.padBits]
  omega

theorem ldm (b c : Nat) : Statement (.ldm b c) := by
  refine ⟨encode_length _, tag_of_encode _, ?_⟩
  rw [word_ldm]
  simp only [Instr.opcode, Opcode.length, Opcode.padBits]
  omega

theorem stm (b c : Nat) : Statement (.stm b c) := by
  refine ⟨encode_length _, tag_of_encode _, ?_⟩
  rw [word_stm]
  simp only [Instr.opcode, Opcode.length, Opcode.padBits]
  omega

theorem max (b c d : Nat) : Statement (.max b c d) := by
  refine ⟨encode_length _, tag_of_encode _, ?_⟩
  rw [word_max]
  simp only [Instr.opcode, Opcode.length, Opcode.padBits]
  omega

end Sys2Proof.Laws.EncodeShape
end

