-- ==== Sys2Proof/Laws/Step.lean ====
section
/-! SUPPORT. Each instruction as one equation, and once everything an instruction and a step can do. -/

namespace Sys2Proof.Machine

/-- LDC as one equation. -/
theorem exec_ldc (b c : Nat) (s : State) :
    exec (.ldc b c) s = .next (if b < s.memSize then s.setMem (s.mem.write b c) else s) :=
  State.moveInto_immediate s b c

/-- LDM as one equation. -/
theorem exec_ldm (b c : Nat) (s : State) :
    exec (.ldm b c) s = .next (if b < s.memSize ∧ c < s.memSize ∧ s.cell c < s.memSize
      then s.setMem (s.mem.write b (s.cell (s.cell c))) else s) :=
  State.moveInto_indirect s b c

/-- STM as one equation. -/
theorem exec_stm (b c : Nat) (s : State) :
    exec (.stm b c) s =
      .next (if c < s.memSize ∧ b < s.memSize then s.setMem (s.mem.write c (s.cell b)) else s) :=
  State.moveInto_direct s c b

/-- MAX as one equation. -/
theorem exec_max (b c d : Nat) (s : State) :
    exec (.max b c d) s = .next (if c < s.memSize ∧ b < s.memSize ∧ d < s.memSize
      then s.setMem (s.mem.write c (largerOf (s.cell b) (s.cell d))) else s) :=
  State.combineInto_direct s c b d largerOf

/-- All an instruction can do: nothing, or one write to its destination cell, which exists. -/
theorem exec_cases (i : Instr) (s : State) :
    exec i s = .next s ∨
      ∃ v, destination i < s.memSize ∧ exec i s = .next (s.setMem (s.mem.write (destination i) v)) := by
  cases i with
  | ldc b c =>
    by_cases h : b < s.memSize
    · exact .inr ⟨_, h, by rw [exec_ldc, if_pos h]; rfl⟩
    · exact .inl (by rw [exec_ldc, if_neg h])
  | ldm b c =>
    by_cases h : b < s.memSize ∧ c < s.memSize ∧ s.cell c < s.memSize
    · exact .inr ⟨_, h.1, by rw [exec_ldm, if_pos h]; rfl⟩
    · exact .inl (by rw [exec_ldm, if_neg h])
  | stm b c =>
    by_cases h : c < s.memSize ∧ b < s.memSize
    · exact .inr ⟨_, h.1, by rw [exec_stm, if_pos h]; rfl⟩
    · exact .inl (by rw [exec_stm, if_neg h])
  | max b c d =>
    by_cases h : c < s.memSize ∧ b < s.memSize ∧ d < s.memSize
    · exact .inr ⟨_, h.1, by rw [exec_max, if_pos h]; rfl⟩
    · exact .inl (by rw [exec_max, if_neg h])

/-- In the loop the step fetches `F[pc]`. -/
theorem fetch_eq {s : State} {slice : List Byte} (hr : s.running = true) (h : s.framed[s.pc]? = some slice) :
    s.fetch = some slice :=
  (State.fetch_of_inLoop (State.inLoop_iff.mpr ⟨hr, (List.getElem?_eq_some_iff.mp h).1⟩)).trans h

theorem step_of_decode_ok {s : State} {slice : List Byte} {i : Instr} (hf : s.fetch = some slice)
    (hd : decode slice = .ok i) : step s = thenAdvance (exec i s) := by
  simp only [step, hf, hd]

theorem step_of_decode_error {s : State} {slice : List Byte} {c : DecodeCondition} (hf : s.fetch = some slice)
    (hd : decode slice = .error c) : step s = .next s.advance := by
  simp only [step, hf, hd, thenAdvance_next]

theorem step_of_not_inLoop {s : State} (h : s.inLoop = false) : step s = .next s := by
  simp only [step, State.fetch_of_not_inLoop h]

/-- All a step can do: hold a finished run, run the decoded instruction and advance, or skip and advance. -/
theorem step_cases (s : State) :
    (s.inLoop = false ∧ step s = .next s) ∨
    ∃ slice, s.inLoop = true ∧ s.framed[s.pc]? = some slice ∧
      ((∃ i, decode slice = .ok i ∧ step s = thenAdvance (exec i s)) ∨
        ∃ c, decode slice = .error c ∧ step s = .next s.advance) := by
  cases h : s.inLoop with
  | false => exact .inl ⟨rfl, step_of_not_inLoop h⟩
  | true =>
    obtain ⟨hr, hp⟩ := State.inLoop_iff.mp h
    have hg : s.framed[s.pc]? = some s.framed[s.pc] := List.getElem?_eq_getElem hp
    refine .inr ⟨_, rfl, hg, ?_⟩
    cases hd : decode s.framed[s.pc] with
    | ok i => exact .inl ⟨i, rfl, step_of_decode_ok (fetch_eq hr hg) hd⟩
    | error c => exact .inr ⟨c, rfl, step_of_decode_error (fetch_eq hr hg) hd⟩

end Sys2Proof.Machine
end

