-- ==== Sys2Proof/Tests/Slice0.lean ====
section
/-! SUPPORT. Tests with expected results from the spec's vectors (95_test_vectors.md), the WellFormed smoke test, and a
witness for the hypotheses of every statement. -/

namespace Sys2Proof.Tests

open Sys2Proof.Machine

/-! ## Helpers -/

/-- A machine of `size` cells with this memory and this loaded program, at the start of a RUN. -/
def machine (size : Nat) (mem : Memory) (bytes : List Byte) : State :=
  ((State.construct size).setMem mem).load bytes

/-- The state an outcome goes on with. -/
def nextState : Result → Option State
  | .next s => some s
  | .fault _ => none
  | .refused _ => none

/-- Memory and pc after one step. -/
def after (s : State) : Option (Memory × Nat) := (nextState (step s)).map fun t => (t.mem, t.pc)

/-! ## WellFormed smoke: an ill-formed instruction for each check -/

theorem test_wf_accepts : (Instr.ldc 4194303 65535).wf = true ∧ (Instr.ldm 4194303 4194303).wf = true ∧
    (Instr.stm 4194303 4194303).wf = true ∧ (Instr.max 4194303 4194303 4194303).wf = true := by decide
theorem test_wf_refuses_ldc_b : (Instr.ldc 4194304 0).wf = false := by decide
theorem test_wf_refuses_ldc_c : (Instr.ldc 0 65536).wf = false := by decide
theorem test_wf_refuses_ldm_b : (Instr.ldm 4194304 0).wf = false := by decide
theorem test_wf_refuses_ldm_c : (Instr.ldm 0 4194304).wf = false := by decide
theorem test_wf_refuses_stm_b : (Instr.stm 4194304 0).wf = false := by decide
theorem test_wf_refuses_stm_c : (Instr.stm 0 4194304).wf = false := by decide
theorem test_wf_refuses_max_b : (Instr.max 4194304 0 0).wf = false := by decide
theorem test_wf_refuses_max_c : (Instr.max 0 4194304 0).wf = false := by decide
theorem test_wf_refuses_max_d : (Instr.max 0 0 4194304).wf = false := by decide

/-! ## Decode: words written out from 30_encoding.md R52 to R55 and the vectors of 95_test_vectors.md section 2 -/

/-- S1: B = 492, C = 964. -/
theorem test_decode_ldc : decode [0x8D, 0x3D, 0x00, 0x20, 0x1E, 0x00] = .ok (.ldc 492 964) := by decide
/-- E5, E6: B bit 21 is byte 3 bit 2, C bit 15 is byte 5 bit 2. -/
theorem test_decode_ldc_edges : decode [0x0D, 0, 0, 0x04, 0, 0] = .ok (.ldc 2097152 0) ∧
    decode [0x0D, 0, 0, 0, 0, 0x04] = .ok (.ldc 0 32768) := by decide
/-- R53's example; E9: C bit 21 is byte 6 bit 0. -/
theorem test_decode_ldm : decode [0xBF, 0, 0, 0x50, 0, 0, 0] = .ok (.ldm 5 10) ∧
    decode [0x1F, 0, 0, 0, 0, 0, 0x01] = .ok (.ldm 0 2097152) := by decide
/-- R54's example; E12. -/
theorem test_decode_stm : decode [0xA7, 0, 0, 0x50, 0, 0, 0] = .ok (.stm 5 10) ∧
    decode [0x27, 0, 0, 0, 0, 0, 0] = .ok (.stm 1 0) := by decide
/-- R55's example; E15, E16: D bit 0 is byte 6 bit 1, D bit 21 is byte 8 bit 6. -/
theorem test_decode_max : decode [0xBC, 0, 0, 0x50, 0, 0, 0x1E, 0, 0] = .ok (.max 5 10 15) ∧
    decode [0x1C, 0, 0, 0, 0, 0, 0x02, 0, 0] = .ok (.max 0 0 1) ∧
    decode [0x1C, 0, 0, 0, 0, 0, 0, 0, 0x40] = .ok (.max 0 0 2097152) := by decide
/-- E20 to E22: pad bits are ignored. -/
theorem test_decode_ignores_pad_bits : decode [0x0D, 0, 0, 0x08, 0, 0xF8] = .ok (.ldc 0 1) ∧
    decode [0x1F, 0, 0, 0x28, 0, 0, 0xFE] = .ok (.ldm 0 5) ∧
    decode [0x1C, 0, 0, 0, 0, 0, 0, 0, 0x80] = .ok (.max 0 0 0) := by decide
/-- E24, E25, E27, E29: the conditions. -/
theorem test_decode_conditions : decode [0x0D] = .error .truncatedInstruction ∧
    decode [0x1F, 0, 0, 0, 0, 0] = .error .truncatedInstruction ∧ decode [0x2E] = .error .unknownOpcode ∧
    decode [] = .error .truncatedInstruction := by decide
/-- C1 and the examples of R110, R120. -/
theorem test_encode : encode (.ldc 13 492) = [0xAD, 0x01, 0x00, 0x60, 0x0F, 0x00] ∧
    encode (.max 1000 2000 1001) = [0x1C, 0x7D, 0x00, 0x80, 0x3E, 0x00, 0xD2, 0x07, 0x00] := by decide
/-- S6: an oversized operand wraps in its own field. -/
theorem test_encode_wraps : encode (.ldc 4194309 65541) = [0xAD, 0, 0, 0x28, 0, 0] ∧
    encode (.max 1 2 4194309) = [0x3C, 0, 0, 0x10, 0, 0, 0x0A, 0, 0] := by decide
/-- The opcode-table numbering: bit 0 is the least significant bit of the first byte. -/
theorem test_decodeTableWord : decodeTableWord 48 0x001E20003D8D = some (.ldc 492 964) ∧
    decodeTableWord 72 0x40000000000000001C = some (.max 0 0 2097152) ∧ decodeTableWord 48 0x2E = none := by decide

/-! ## The framer: 95_test_vectors.md section 3 -/

/-- F7: a garbage byte with a recognised tag swallows the next instruction. -/
theorem test_frame_swallows : frame [0xAD, 0x01, 0, 0x60, 0x0F, 0, 0xFF, 0x0D, 0, 0, 0x20, 0x1E, 0] =
    [[0xAD, 0x01, 0, 0x60, 0x0F, 0], [0xFF, 0x0D, 0, 0, 0x20, 0x1E, 0]] := by decide
/-- P4: skipped bytes and a truncated tail. -/
theorem test_frame_damaged : frame [0x00, 0x2D, 0, 0, 0x10, 0, 0, 0xE0, 0x27, 0, 0, 0x10, 0, 0, 0, 0x3C, 0, 0, 0x10] =
    [[0x2D, 0, 0, 0x10, 0, 0], [0x27, 0, 0, 0x10, 0, 0, 0]] := by decide
/-- F8: the conditions the framer absorbs. -/
theorem test_frame_conditions : frameConditions [0xAD, 0x01, 0, 0x60, 0x0F, 0, 0x0D, 0x0D, 0, 0, 0x20, 0x1E, 0] =
    [(.unknownOpcode, 12)] := by decide

/-! ## One step of each instruction: 95_test_vectors.md section 4 -/

/-- X3: the last cell and the largest constant. -/
theorem test_ldc_last_cell : after (machine 65536 [] [0xED, 0xFF, 0x1F, 0xF8, 0xFF, 0x07]) =
    some ([(65535, 65535)], 1) := by decide
/-- X7: B = S does nothing, and pc advances. -/
theorem test_ldc_out_of_range : after (machine 16 [] [0x0D, 0x02, 0, 0x08, 0, 0]) = some ([], 1) := by decide
/-- X11: B = C, the old cell is the address. -/
theorem test_ldm_aliased : after (machine 65536 [(3, 55), (7, 3)] [0xFF, 0, 0, 0x38, 0, 0, 0]) =
    some ([(3, 55), (7, 55)], 1) := by decide
/-- X17: the inner address is out of range. -/
theorem test_ldm_inner_out_of_range : after (machine 16 [(4, 20), (5, 1)] [0xBF, 0, 0, 0x20, 0, 0, 0]) =
    some ([(4, 20), (5, 1)], 1) := by decide
/-- X25: a direct store. -/
theorem test_stm_direct : after (machine 65536 [(3, 1), (5, 10), (10, 3)] [0xA7, 0, 0, 0x50, 0, 0, 0]) =
    some ([(3, 1), (5, 10), (10, 10)], 1) := by decide
/-- X24: a cell never written is stored as 0. -/
theorem test_stm_unwritten_source : after (machine 65536 [(5, 99)] [0xC7, 0, 0, 0x28, 0, 0, 0]) =
    some ([], 1) := by decide
/-- X31: the destination is the middle operand. -/
theorem test_max_destination : after (machine 65536 [(1000, 45), (1001, 200)]
    [0x1C, 0xFA, 0, 0x40, 0x1F, 0, 0xD2, 0x07, 0]) = some ([(1000, 200), (1001, 200)], 1) := by decide
/-- X40: D = S cancels everything. -/
theorem test_max_out_of_range : after (machine 65536 [(1, 5), (2, 9), (3, 7)]
    [0x3C, 0, 0, 0x10, 0, 0, 0, 0, 0x02]) = some ([(1, 5), (2, 9), (3, 7)], 1) := by decide
/-- A placed table word runs first after reset (X1). -/
theorem test_placed_word : after (State.reset.withFetchWord 48 0x000F600001AD) = some ([(13, 492)], 1) := by decide

/-! ## DUMP and the assembler: 95_test_vectors.md sections 5 and 6 -/

/-- M1 and M5, with the listed cells below 100. -/
theorem test_dump : answer (.dump none) (machine 128 [(0, 964), (13, 492), (99, 1), (100, 2)] []) =
      some [("0", 964), ("13", 492), ("99", 1)] ∧
    dump (machine 128 [(0, 964), (13, 492)] []) 60 50 = [] := by decide
/-- A5, A7 and A8. -/
theorem test_assemble : assemble "ldc 1 2#x" = .ok [0x2D, 0, 0, 0x10, 0, 0] ∧
    assemble "ldc 007 010" = .ok [0xED, 0, 0, 0x50, 0, 0] ∧
    assemble "ldc\t5\t6" = .ok [0xAD, 0, 0, 0x30, 0, 0] := by decide
/-- A10, A14, A16. -/
theorem test_assemble_errors : assemble "ldc 1 2 3" = .error (.arityMismatch 1) ∧
    assemble "ldc -1 2" = .error (.malformedOperand 1 ['-', '1']) ∧
    assemble "jmp x" = .error (.unknownMnemonic 1 ['j', 'm', 'p']) := by decide
/-- A18: the parse error on line 2 beats the arity error on line 1. -/
theorem test_assemble_error_order : assemble "ldc 1\nldc x 1" = .error (.malformedOperand 2 ['x']) := by decide

/-! ## Witnesses: the hypotheses of each statement are met by something concrete -/

theorem witness_DecodeOfEncodeIsTheInstruction : (Instr.ldc 4194303 65535).wf = true ∧
    (Instr.max 0 4194303 4194303).wf = true := by decide
theorem witness_EncodeOfDecodeClearsPadBits : decode [0x0D, 0, 0, 0x08, 0, 0xF8] = .ok (.ldc 0 1) ∧
    [0x0D, 0, 0, 0x08, 0, (0xF8 : Byte)].length = (Instr.ldc 0 1).opcode.length := by decide
theorem witness_DecodedOperandsAreWordSlices : decode [0xFF, 0xFF, 0xFF, 0xFF, 0xFF, 0xFF, 0xFF] =
    .ok (.ldm 4194303 4194303) := by decide
theorem witness_LengthTableIsDefinedOnFourTags : (0 : Nat) < 32 ∧ (0 : Nat) ≠ 13 ∧ (0 : Nat) ≠ 31 ∧ (0 : Nat) ≠ 7 ∧
    (0 : Nat) ≠ 28 := by decide
theorem witness_DecodeTestsTheTagBeforeTheLength_unknown : lengthOfTag (tagOf 0x2E) = none := by decide
theorem witness_DecodeTestsTheTagBeforeTheLength_short : lengthOfTag (tagOf 0x2D) = some 6 ∧
    ((0x2D : Byte) :: [0, 0, 0, 0]).length < 6 := by decide
theorem witness_DecodeTestsTheTagBeforeTheLength_enough : lengthOfTag (tagOf 0x2D) = some 6 ∧
    6 ≤ ((0x2D : Byte) :: [0, 0, 0, 0, 0]).length := by decide
theorem witness_FramerScansByTheLengthTable_unknown : lengthOfTag (tagOf 0xE0) = none := by decide
theorem witness_FramerScansByTheLengthTable_short : lengthOfTag (tagOf 0x1C) = some 9 ∧
    ((0x1C : Byte) :: [0, 0, 0, 0, 0, 0, 0]).length < 9 := by decide
theorem witness_FramerScansByTheLengthTable_enough : lengthOfTag (tagOf 0x1C) = some 9 ∧
    9 ≤ ((0x1C : Byte) :: [0, 0, 0, 0, 0, 0, 0, 0]).length := by decide
theorem witness_FramerAbsorbsDecodeConditions_unknown : ([0x2E] : List Byte) ≠ [] ∧
    decode [0x2E] = .error .unknownOpcode := by decide
theorem witness_FramerAbsorbsDecodeConditions_truncated : ([0x0D] : List Byte) ≠ [] ∧
    decode [0x0D] = .error .truncatedInstruction := by decide
theorem witness_FramerAbsorbsDecodeConditions_ok : ([0x0D, 0, 0, 0, 0, 0, 7] : List Byte) ≠ [] ∧
    decode [0x0D, 0, 0, 0, 0, 0, 7] = .ok (.ldc 0 0) := by decide
theorem witness_FramedSlicesDecode : [0x07, 0, 0, 0, 0, 0, 0] ∈ frame [0x00, 0x07, 0, 0, 0, 0, 0, 0] := by decide
theorem witness_FramedSlicesAreDisjointAndInOrder :
    (frame [0x0D, 0, 0, 0, 0, 0, 0x00, 0x2D, 0, 0, 0, 0, 0])[0]? = some [0x0D, 0, 0, 0, 0, 0] ∧
    ([0, 7] : List Nat)[0]? = some 0 ∧ 0 < 1 ∧ ([0, 7] : List Nat)[1]? = some 7 := by decide
theorem witness_UnrecognisedByteBetweenInstructionsIsSkipped : lengthOfTag (tagOf 0x00) = none := by decide
theorem witness_LoadConditionsAriseInStreamOrder :
    (frameConditions [0x00, 0x0D, 0])[0]? = some (.unknownOpcode, 0) ∧
    (frameConditions [0x00, 0x0D, 0])[1]? = some (.truncatedInstruction, 1) := by decide
theorem witness_MemoryInterfaceMovesWholeCellsOrRefuses : 15 < (State.construct 16).memSize ∧
    (State.construct 16).memSize ≤ 16 ∧ 14 ≠ 15 := by decide
theorem witness_CanonicalMemoriesAreDeterminedByTheirReads : Memory.wf [(3, 1), (5, 10)] ∧
    ∀ a, Memory.read [(3, 1), (5, 10)] a = Memory.read [(3, 1), (5, 10)] a := ⟨by decide, fun _ => rfl⟩

/-- A machine of 16 cells whose cell 3 points to the last cell and cell 4 outside memory. -/
def small : State := machine 16 [(3, 15), (4, 16), (15, 8)] []

theorem witness_LdcStoresItsConstant : 15 < small.memSize ∧ small.memSize ≤ 16 ∧ (3 : Nat) ≠ 15 ∧
    (4194303 : Nat) < 2 ^ 22 ∧ (65535 : Nat) < 2 ^ 16 := by decide
theorem witness_LdcStoresItsConstant_values : (∃ t, exec (.max 3 0 4) small = .next t) ∧
    ∃ t, exec (.ldc 0 7) small = .next t := ⟨⟨_, rfl⟩, ⟨_, rfl⟩⟩
theorem witness_LdmLoadsThroughItsPointer_effect : 15 < small.memSize ∧ 3 < small.memSize ∧
    small.cell 3 < small.memSize := by decide
theorem witness_LdmLoadsThroughItsPointer_cancelled : small.memSize ≤ 16 ∧ small.memSize ≤ small.cell 4 := by decide
theorem witness_StmCopiesACell : 15 < small.memSize ∧ 0 < small.memSize ∧ small.memSize ≤ 16 := by decide
theorem witness_MaxStoresTheLargerCell : 15 < small.memSize ∧ 0 < small.memSize ∧ 3 < small.memSize ∧
    small.memSize ≤ 16 := by decide
theorem witness_MaxValueIsTheMathematicalMaximum : ∃ t u, 3 < small.memSize ∧ 5 < small.memSize ∧
    4 < small.memSize ∧ exec (.max 3 5 4) small = .next t ∧ exec (.max 4 5 3) small = .next u :=
  ⟨_, _, by decide, by decide, by decide, rfl, rfl⟩
theorem witness_OutOfRangeAddressCancelsTheInstruction :
    (16 ∈ participating (.ldc 16 0) small ∧ small.memSize ≤ 16) ∧
    (16 ∈ participating (.ldm 5 4) small ∧ 16 ∈ participating (.ldm 5 16) small) ∧
    16 ∈ participating (.stm 16 5) small ∧ 16 ∈ participating (.max 1 2 16) small := by decide
theorem witness_InstructionsWriteOnlyTheirDestination :
    (∃ t, exec (.ldc 2 7) small = .next t) ∧ (∃ t, exec (.ldm 2 3) small = .next t) ∧
    (∃ t, exec (.stm 3 2) small = .next t) ∧ (∃ t, exec (.max 3 2 4) small = .next t) ∧
    destination (.stm 3 2) = 2 ∧ (3 : Nat) ≠ 2 := ⟨⟨_, rfl⟩, ⟨_, rfl⟩, ⟨_, rfl⟩, ⟨_, rfl⟩, rfl, by decide⟩

/-- A state no LOAD produces: its one framed slice does not decode. -/
def undecodable : State := { small with framed := [[0x2E]] }

theorem witness_NoInstructionRaisesAnException : [0x0D, 0, 0, 0, 0, 0] ∈ frame [0x0D, 0, 0, 0, 0, 0] ∧
    undecodable.running = true ∧ undecodable.framed[undecodable.pc]? = some [0x2E] ∧
    decode [0x2E] = .error .unknownOpcode := by decide

/-- A machine of 16 cells in the middle of a run: LDC 1 2 has been run, STM 1 2 is next. -/
def midRun : State :=
  { machine 16 [(1, 2)] [0x2D, 0, 0, 0x10, 0, 0, 0x27, 0, 0, 0x10, 0, 0, 0] with pc := 1 }

theorem witness_StepRunsTheDecodedInstruction : midRun.running = true ∧
    midRun.framed[midRun.pc]? = some [0x27, 0, 0, 0x10, 0, 0, 0] ∧
    decode [0x27, 0, 0, 0x10, 0, 0, 0] = .ok (.stm 1 2) := by decide
theorem witness_StepRunsTheDecodedInstruction_skip : undecodable.running = true ∧
    undecodable.framed[undecodable.pc]? = some [0x2E] ∧ decode [0x2E] = .error .unknownOpcode := by decide
theorem witness_EveryStepAdvancesPcByOne : midRun.running = true ∧ midRun.pc < midRun.framed.length ∧
    ∃ t, exec (.stm 1 2) midRun = .next t := ⟨rfl, by decide, _, rfl⟩
theorem witness_FinishedRunHoldsItsState : midRun.advance.framed.length ≤ midRun.advance.pc ∧
    { midRun with running := false }.running = false := by decide
theorem witness_ProgramIsReadOnlyDuringExecution : (∃ t, exec (.stm 1 2) midRun = .next t) ∧
    (∃ t, step midRun = .next t) ∧ ∃ t, run midRun = .next t := ⟨⟨_, rfl⟩, ⟨_, rfl⟩, ⟨_, rfl⟩⟩
theorem witness_PlacedWordIsTheNextInstruction : decodeTableWord 56 0x500000A7 = some (.stm 5 10) := by decide

theorem midRun_legal : RunLegal midRun :=
  ⟨⟨by decide, by decide, by decide⟩, ⟨by decide, rfl⟩, by decide⟩

theorem witness_StepKeepsLegalStates : RunLegal midRun ∧ ∃ t, step midRun = .next t := ⟨midRun_legal, _, rfl⟩
theorem witness_SessionsKeepTheMachineLegal : MemoryLegal midRun ∧ ProgramLegal midRun :=
  ⟨midRun_legal.memory, midRun_legal.program⟩
theorem witness_MemorySizeNeverChanges : (∃ t, step midRun = .next t) ∧
    (∀ n, Transaction.run ≠ .construct n) ∧ ∃ t, transact .run midRun = .next t :=
  ⟨⟨_, rfl⟩, fun _ => nofun, ⟨_, rfl⟩⟩
theorem witness_RunningIsNeverWritten : (∃ t, step midRun = .next t) ∧
    (∀ n, Transaction.load [] ≠ .construct n) ∧ ∃ t, transact (.load []) midRun = .next t :=
  ⟨⟨_, rfl⟩, fun _ => nofun, ⟨_, rfl⟩⟩
theorem witness_CellsBeyondTheFieldsStayZero : (∀ a, 2 ^ 22 ≤ a → (State.construct (2 ^ 23)).cell a = 0) ∧
    (∃ t, step (State.construct (2 ^ 23)) = .next t) ∧ 2 ^ 22 ≤ 4194304 := ⟨fun _ _ => rfl, ⟨_, rfl⟩, by decide⟩
theorem witness_RunMakesExactlyOneStepPerFramedInstruction : midRun.running = true ∧ 1 < midRun.framed.length ∧
    (State.construct 16).framed = [] ∧ (State.construct 16).running = true := by decide
theorem witness_RunMakesExactlyOneStepPerFramedInstruction_function :
    midRun.running = true ∧ midRun.advance.running = true ∧ midRun.memSize = midRun.advance.memSize ∧
    midRun.mem = midRun.advance.mem ∧ midRun.framed = midRun.advance.framed ∧
    (∃ t, run midRun = .next t) ∧ ∃ t, run midRun.advance = .next t :=
  ⟨rfl, rfl, rfl, rfl, rfl, ⟨_, rfl⟩, ⟨_, rfl⟩⟩
theorem witness_RunExecutesTheProgramInOrder : small.running = true ∧
    ∀ i ∈ [Instr.ldc 1 2, Instr.max 1 3 1], i.wf = true := by decide
theorem witness_LazyFramingReachesTheSameStates : midRun.running = true ∧ midRun.framed = frame midRun.program ∧
    ∃ t, stepN 2 midRun.beginRun = .next t := ⟨rfl, by decide, _, rfl⟩
theorem witness_DumpReportsExactlyTheNonzeroCells : min 20 small.memSize ≤ 16 ∧ 3 < min 20 small.memSize ∧
    small.cell 3 = 15 := by decide
theorem witness_DumpListsTheCanonicalCells : MemoryLegal small := ⟨by decide, by decide, by decide⟩
theorem witness_DumpKeysAreDecimalNumerals : (decimalNumeral 0).head? = some '0' := by decide
theorem witness_AssembledStreamsFrameToTheirLines :
    assembleChars ['l', 'd', 'c', ' ', '1', ' ', '2'] = .ok [0x2D, 0, 0, 0x10, 0, 0] := by decide
theorem witness_ParseErrorsPrecedeArityErrors : assembleChars "ldc 1\nldc x 1".toList =
      .error (.malformedOperand 2 ['x']) ∧
    assembleChars "ldc 1".toList = .error (.arityMismatch 1) := by decide
theorem witness_AssemblyErrorsNameTheirLineAndToken :
    assembleChars "ldc 1 2\nfoo 1".toList = .error (.unknownMnemonic 2 ['f', 'o', 'o']) ∧
    assembleChars "max 1 2 z".toList = .error (.malformedOperand 1 ['z']) ∧
    assembleChars "max 1 2".toList = .error (.arityMismatch 1) := by decide
theorem witness_OnlyAssemblyConditionsAreFatal_parse :
    splitAtAll isLineFeed "ldc 1 2\nfoo 1\nmax 1".toList = ["ldc 1 2".toList] ++ "foo 1".toList :: ["max 1".toList] ∧
    parseLines 1 ["ldc 1 2".toList] = .ok [{ line := 1, opcode := .ldc, operands := [1, 2] }] ∧
    parseLine 2 "foo 1".toList = .error (.unknownMnemonic 2 ['f', 'o', 'o']) := by decide
theorem witness_OnlyAssemblyConditionsAreFatal_lower :
    parseSource "ldc 1 2\nmax 1\nstm 3".toList = .ok ([{ line := 1, opcode := .ldc, operands := [1, 2] }] ++
      { line := 2, opcode := .max, operands := [1] } :: [{ line := 3, opcode := .stm, operands := [3] }]) ∧
    lowerAll [{ line := 1, opcode := .ldc, operands := [1, 2] }] = .ok [.ldc 1 2] ∧
    [1].length ≠ Opcode.max.arity := by decide
theorem witness_OnlyAssemblyConditionsAreFatal_load :
    decode ([0x00, 0x0D] : List Byte) = .error .unknownOpcode ∧
    decode ([0x0D, 0x00, 0x00] : List Byte) = .error .truncatedInstruction := by decide
theorem witness_TrailingCommentsAreDiscarded : '#' ∉ "ldc 1 2".toList ∧
    "ldc 1 2".toList.getLast? ≠ some '\r' := by decide
theorem witness_MnemonicsAreCaseInsensitive : opcodeOfMnemonic ['M', 'a', 'x'] = some .max ∧
    ['M', 'a', 'x'].map Char.toUpper = opcodeName .max := by decide

end Sys2Proof.Tests
end

section
/-! SUPPORT. What an instruction, a step, a RUN and a session keep of the state (10_state.md section 1): the frame of
each, the legal states as an invariant, and each induction over a run or a session once. -/

namespace Sys2Proof.Machine

/-! ## Decoded instructions are well-formed -/

theorem fitsField_extract (f : Field) (w : Nat) : fitsField f.width (f.extract w) = true := by
  rw [fitsField, decide_eq_true_eq, Field.extract_eq]
  exact Nat.mod_lt _ (Nat.two_pow_pos _)

theorem instrOfWord_wf (op : Opcode) (w : Nat) : (instrOfWord op w).wf = true := by
  have hB : fitsField 22 (fieldB.extract w) = true := fitsField_extract fieldB w
  have hC16 : fitsField 16 (fieldC16.extract w) = true := fitsField_extract fieldC16 w
  have hC22 : fitsField 22 (fieldC22.extract w) = true := fitsField_extract fieldC22 w
  have hD : fitsField 22 (fieldD.extract w) = true := fitsField_extract fieldD w
  cases op <;> simp only [instrOfWord, Instr.wf, hB, hC16, hC22, hD, Bool.and_self]

theorem wf_of_decode_ok {bytes : List Byte} {i : Instr} (h : decode bytes = .ok i) : i.wf = true := by
  obtain ⟨op, first, rest, -, -, -, rfl⟩ := decode_eq_ok h
  exact instrOfWord_wf op _

theorem ldc_literal_lt_of_wf {b c : Nat} (h : (Instr.ldc b c).wf = true) : c < 2 ^ 16 := by
  rw [Instr.wf, Bool.and_eq_true, fitsField, fitsField, decide_eq_true_eq, decide_eq_true_eq] at h
  exact h.2

/-! ## The frame of an instruction, a step and a RUN -/

/-- An outcome has at most one next state, so what is known of some next state of it holds of any. -/
theorem holds_of_eq_next {r : Result} {t : State} {P : State → Prop} (hr : ∃ u, r = .next u ∧ P u) (h : r = .next t) :
    P t := by
  obtain ⟨u, hu, hp⟩ := hr
  cases hu.symm.trans h
  exact hp

theorem SameButMemory.refl (s : State) : SameButMemory s s := ⟨rfl, rfl, rfl, rfl, rfl⟩

theorem SameButMemory.setMem (s : State) (m : Memory) : SameButMemory s (s.setMem m) := ⟨rfl, rfl, rfl, rfl, rfl⟩

/-- Every instruction answers a state that differs in memory at most (60_exceptions.md R135). -/
theorem exec_next (i : Instr) (s : State) : ∃ t, exec i s = .next t ∧ SameButMemory s t := by
  rcases exec_cases i s with h | ⟨v, -, h⟩
  · exact ⟨s, h, .refl s⟩
  · exact ⟨_, h, .setMem s _⟩

theorem exec_sameButMemory {i : Instr} {s t : State} (h : exec i s = .next t) : SameButMemory s t :=
  holds_of_eq_next (exec_next i s) h

/-- A step in the loop advances pc on what a well-formed instruction, or a skipped one, leaves. -/
theorem step_of_inLoop {s : State} (h : s.inLoop = true) :
    ∃ u, step s = .next u.advance ∧ SameButMemory s u ∧ (u = s ∨ ∃ i, i.wf = true ∧ exec i s = .next u) := by
  rcases step_cases s with ⟨hout, -⟩ | ⟨slice, -, -, ⟨i, hdec, hstep⟩ | ⟨c, -, hstep⟩⟩
  · cases h.symm.trans hout
  · obtain ⟨u, hu, hsame⟩ := exec_next i s
    rw [hu, thenAdvance_next] at hstep
    exact ⟨u, hstep, hsame, .inr ⟨i, wf_of_decode_ok hdec, hu⟩⟩
  · exact ⟨s, hstep, .refl s, .inl rfl⟩

/-- All a step can answer: the state of a finished run, or an advanced state as `step_of_inLoop` says. -/
theorem step_eq_next {s t : State} (h : step s = .next t) :
    (s.inLoop = false ∧ t = s) ∨
    ∃ u, s.inLoop = true ∧ t = u.advance ∧ SameButMemory s u ∧ (u = s ∨ ∃ i, i.wf = true ∧ exec i s = .next u) := by
  cases hl : s.inLoop with
  | false => exact .inl ⟨rfl, (Host.Outcome.next.inj ((step_of_not_inLoop hl).symm.trans h)).symm⟩
  | true =>
    obtain ⟨u, hstep, hsame, hu⟩ := step_of_inLoop hl
    exact .inr ⟨u, rfl, Host.Outcome.next.inj (h.symm.trans hstep), hsame, hu⟩

/-- `t` agrees with `s` in everything but memory and pc: MEM_SIZE, P, F and running. -/
structure SameButMemoryAndPc (s t : State) : Prop where
  memSize : t.memSize = s.memSize
  program : t.program = s.program
  framed : t.framed = s.framed
  running : t.running = s.running

theorem SameButMemoryAndPc.trans {s t u : State} (hst : SameButMemoryAndPc s t) (htu : SameButMemoryAndPc t u) :
    SameButMemoryAndPc s u :=
  ⟨htu.memSize.trans hst.memSize, htu.program.trans hst.program, htu.framed.trans hst.framed,
    htu.running.trans hst.running⟩

/-- Every step answers a state that differs in memory and pc at most, whether or not the run is over. -/
theorem step_next (s : State) : ∃ t, step s = .next t ∧ SameButMemoryAndPc s t := by
  cases h : s.inLoop with
  | false => exact ⟨s, step_of_not_inLoop h, ⟨rfl, rfl, rfl, rfl⟩⟩
  | true =>
    obtain ⟨u, hstep, ⟨hsize, hprogram, hframed, -, hrunning⟩, -⟩ := step_of_inLoop h
    exact ⟨u.advance, hstep, ⟨hsize, hprogram, hframed, hrunning⟩⟩

theorem step_sameButMemoryAndPc {s t : State} (h : step s = .next t) : SameButMemoryAndPc s t :=
  holds_of_eq_next (step_next s) h

theorem runLoop_of_not_inLoop (fuel : Nat) {s : State} (h : s.inLoop = false) : runLoop fuel s = .next s := by
  cases fuel with
  | zero => rfl
  | succ fuel => simp [runLoop, h]

theorem runLoop_succ_of_step (fuel : Nat) {s t : State} (h : s.inLoop = true) (hstep : step s = .next t) :
    runLoop (fuel + 1) s = runLoop fuel t := by
  simp only [runLoop, h, hstep, if_true]

/-- The induction over RUN's loop: it answers, and what every step keeps it keeps. -/
theorem runLoop_keeps {P : State → Prop} (hkeep : ∀ s t, P s → step s = .next t → P t) (fuel : Nat) (s : State)
    (hs : P s) : ∃ t, runLoop fuel s = .next t ∧ P t := by
  induction fuel generalizing s with
  | zero => exact ⟨s, rfl, hs⟩
  | succ fuel ih =>
    cases h : s.inLoop with
    | false => exact ⟨s, runLoop_of_not_inLoop _ h, hs⟩
    | true =>
      obtain ⟨t, hstep, -⟩ := step_next s
      rw [runLoop_succ_of_step fuel h hstep]
      exact ih t (hkeep s t hs hstep)

/-- RUN answers, and what every step keeps of its start state holds of its last. -/
theorem run_keeps {P : State → Prop} (hkeep : ∀ s t, P s → step s = .next t → P t) (s : State) (hs : P s.beginRun) :
    ∃ t, run s = .next t ∧ P t :=
  runLoop_keeps hkeep s.framed.length s.beginRun hs

/-- RUN answers a state that differs in memory and pc at most. -/
theorem run_next (s : State) : ∃ t, run s = .next t ∧ SameButMemoryAndPc s t :=
  run_keeps (fun _ _ hsame hstep => hsame.trans (step_sameButMemoryAndPc hstep)) s ⟨rfl, rfl, rfl, rfl⟩

theorem run_sameButMemoryAndPc {s t : State} (h : run s = .next t) : SameButMemoryAndPc s t :=
  holds_of_eq_next (run_next s) h

/-- RUN starts pc at 0, so the pc it finds has no effect (10_state.md R15). -/
theorem run_pc_irrelevant (s : State) (k : Nat) : run { s with pc := k } = run s := rfl

theorem transact_memSize_running {tr : Transaction} {s t : State} (hne : ∀ n, tr ≠ .construct n)
    (h : transact tr s = .next t) : t.memSize = s.memSize ∧ t.running = s.running := by
  cases tr with
  | construct n => exact absurd rfl (hne n)
  | load bytes =>
    cases h
    exact ⟨rfl, rfl⟩
  | run =>
    have hsame := run_sameButMemoryAndPc h
    exact ⟨hsame.memSize, hsame.running⟩
  | dump range =>
    cases h
    exact ⟨rfl, rfl⟩

/-! ## Legal states -/

theorem MemoryLegal.cell_lt {s : State} (h : MemoryLegal s) (a : Nat) : s.cell a < 2 ^ 16 := by
  by_cases hz : s.cell a = 0
  · rw [hz]
    decide
  · exact h.bounded _ (Memory.mem_of_read_ne_zero hz)

/-- A write of a 16-bit value into a cell that exists keeps memory legal. -/
theorem MemoryLegal.write {s : State} (h : MemoryLegal s) {a v : Nat} (ha : a < s.memSize) (hv : v < 2 ^ 16) :
    MemoryLegal (s.setMem (s.mem.write a v)) where
  canonical := Memory.wf_write h.canonical a v
  exists_cells cell hc := by
    rcases Memory.mem_write hc with rfl | hc
    · exact ha
    · exact h.exists_cells cell hc
  bounded cell hc := by
    rcases Memory.mem_write hc with rfl | hc
    · exact hv
    · exact h.bounded cell hc

/-- The same under an instruction's bounds check `c`, which guards the destination. -/
theorem MemoryLegal.writeIf {s : State} (h : MemoryLegal s) {c : Prop} [Decidable c] {a v : Nat}
    (ha : c → a < s.memSize) (hv : v < 2 ^ 16) : MemoryLegal (if c then s.setMem (s.mem.write a v) else s) := by
  split
  · next hc => exact h.write (ha hc) hv
  · exact h

/-- A well-formed instruction keeps memory legal: LDC's literal has 16 bits, and the others write a value that a cell
already holds (10_state.md R13). -/
theorem exec_keeps_memoryLegal {i : Instr} {s t : State} (hwf : i.wf = true) (hs : MemoryLegal s)
    (h : exec i s = .next t) : MemoryLegal t := by
  cases i with
  | ldc b c =>
    rw [exec_ldc] at h
    cases h
    exact hs.writeIf id (ldc_literal_lt_of_wf hwf)
  | ldm b c =>
    rw [exec_ldm] at h
    cases h
    exact hs.writeIf And.left (hs.cell_lt _)
  | stm b c =>
    rw [exec_stm] at h
    cases h
    exact hs.writeIf And.left (hs.cell_lt _)
  | max b c d =>
    rw [exec_max, largerOf_eq_max] at h
    cases h
    exact hs.writeIf And.left (Nat.max_lt.mpr ⟨hs.cell_lt _, hs.cell_lt _⟩)

/-- `MemoryLegal` reads MEM_SIZE and memory only. -/
theorem MemoryLegal.congr {s t : State} (h : MemoryLegal s) (hsize : t.memSize = s.memSize) (hmem : t.mem = s.mem) :
    MemoryLegal t :=
  ⟨hmem ▸ h.canonical, hmem ▸ hsize ▸ h.exists_cells, hmem ▸ h.bounded⟩

theorem step_keeps_memoryLegal {s t : State} (hs : MemoryLegal s) (h : step s = .next t) : MemoryLegal t := by
  rcases step_eq_next h with ⟨-, rfl⟩ | ⟨u, -, rfl, -, rfl | ⟨i, hwf, hexec⟩⟩
  · exact hs
  · exact hs.congr rfl rfl
  · exact (exec_keeps_memoryLegal hwf hs hexec).congr rfl rfl

theorem ProgramLegal.congr {s t : State} (h : ProgramLegal s) (hsame : SameButMemoryAndPc s t) : ProgramLegal t :=
  ⟨by rw [hsame.framed, hsame.program, h.framed_eq], hsame.running.trans h.running_eq⟩

theorem step_pc_le {s t : State} (hs : s.pc ≤ s.framed.length) (h : step s = .next t) : t.pc ≤ s.framed.length := by
  rcases step_eq_next h with ⟨-, rfl⟩ | ⟨u, hloop, rfl, ⟨-, -, -, hpc, -⟩, -⟩
  · exact hs
  · rw [State.advance_pc, hpc]
    exact (State.inLoop_iff.mp hloop).2

theorem step_keeps_runLegal {s t : State} (hs : RunLegal s) (h : step s = .next t) : RunLegal t := by
  have hsame := step_sameButMemoryAndPc h
  exact ⟨step_keeps_memoryLegal hs.memory h, hs.program.congr hsame, hsame.framed ▸ step_pc_le hs.pc_le h⟩

/-- Where memory and program are legal RUN begins in a legal state, whatever pc was, and every step keeps that. -/
theorem run_legal {s : State} (hmem : MemoryLegal s) (hprog : ProgramLegal s) : ∃ t, run s = .next t ∧ RunLegal t :=
  run_keeps (fun _ _ => step_keeps_runLegal) s
    ⟨hmem.congr rfl rfl, hprog.congr ⟨rfl, rfl, rfl, rfl⟩, Nat.zero_le _⟩

theorem construct_memoryLegal (n : Nat) : MemoryLegal (State.construct n) :=
  ⟨State.construct_mem_wf n, fun _ hc => absurd hc List.not_mem_nil, fun _ hc => absurd hc List.not_mem_nil⟩

theorem construct_programLegal (n : Nat) : ProgramLegal (State.construct n) := ⟨rfl, rfl⟩

/-- Every transaction answers and keeps memory and program legal. -/
theorem transact_legal (tr : Transaction) {s : State} (h : MemoryLegal s ∧ ProgramLegal s) :
    ∃ t, transact tr s = .next t ∧ MemoryLegal t ∧ ProgramLegal t := by
  obtain ⟨hmem, hprog⟩ := h
  cases tr with
  | construct n => exact ⟨_, rfl, construct_memoryLegal _, construct_programLegal _⟩
  | load bytes => exact ⟨_, rfl, hmem.congr rfl rfl, ⟨rfl, hprog.running_eq⟩⟩
  | run =>
    obtain ⟨t, hrun, hlegal⟩ := run_legal hmem hprog
    exact ⟨t, hrun, hlegal.memory, hlegal.program⟩
  | dump range => exact ⟨s, rfl, hmem, hprog⟩

theorem session_cons_of_transact {tr : Transaction} {s t : State} (rest : List Transaction)
    (h : transact tr s = .next t) : session (tr :: rest) s = session rest t := by
  simp only [session, h]

/-- The induction over a session: where every transaction answers and keeps `P`, so does the session. -/
theorem session_keeps {P : State → Prop} (hkeep : ∀ tr s, P s → ∃ t, transact tr s = .next t ∧ P t)
    (trs : List Transaction) (s : State) (hs : P s) : ∃ t, session trs s = .next t ∧ P t := by
  induction trs generalizing s with
  | nil => exact ⟨s, rfl, hs⟩
  | cons tr rest ih =>
    obtain ⟨t, ht, hpt⟩ := hkeep tr s hs
    rw [session_cons_of_transact rest ht]
    exact ih t hpt

/-! ## The statements on the state -/

/-- Settles O34: every transaction keeps memory and program legal, and RUN from there ends in a legal state. -/
theorem sessionsKeepTheMachineLegal : Obligations.SessionsKeepTheMachineLegal := by
  intro ts s hmem hprog
  obtain ⟨t, hsession, hmem', hprog'⟩ := session_keeps (fun tr _ => transact_legal tr) ts s ⟨hmem, hprog⟩
  exact ⟨t, hsession, hmem', hprog', run_legal hmem' hprog'⟩

/-- Settles O28: a step in the loop answers an advanced state that agrees with the old one in all but memory. -/
theorem everyStepAdvancesPcByOne : Obligations.EveryStepAdvancesPcByOne := by
  refine ⟨fun s hrunning hpc => ?_, fun i s t h => ?_, State.beginRun_pc, run_pc_irrelevant⟩
  · obtain ⟨u, hstep, ⟨-, -, -, hsame, -⟩, -⟩ := step_of_inLoop (State.inLoop_iff.mpr ⟨hrunning, hpc⟩)
    exact ⟨u.advance, hstep, by rw [State.advance_pc, hsame]⟩
  · obtain ⟨-, -, -, hsame, -⟩ := exec_sameButMemory h
    exact hsame

/-- Settles O35, from the frame of a step and of a transaction. -/
theorem memorySizeNeverChanges : Obligations.MemorySizeNeverChanges :=
  ⟨fun _ _ h => (step_sameButMemoryAndPc h).memSize, fun _ _ _ hne h => (transact_memSize_running hne h).1⟩

/-- Settles O36, from the frame of a step and of a transaction. -/
theorem runningIsNeverWritten : Obligations.RunningIsNeverWritten :=
  ⟨fun _ _ h => (step_sameButMemoryAndPc h).running, fun _ _ _ hne h => (transact_memSize_running hne h).2⟩

end Sys2Proof.Machine
end

section
/-! SUPPORT. Memory and the program (20_memory.md): encodings decode and frame back, what an instruction does depends on
MEM_SIZE and memory alone, RUN executes a loaded stream in order, and what DUMP reports. -/

namespace Sys2Proof

/-! ## An encoding decodes back -/

theorem encodeShape (i : Instr) : Laws.EncodeShape.Statement i := by
  cases i with
  | ldc b c => exact Laws.EncodeShape.ldc b c
  | ldm b c => exact Laws.EncodeShape.ldm b c
  | stm b c => exact Laws.EncodeShape.stm b c
  | max b c d => exact Laws.EncodeShape.max b c d

theorem word_lt (i : Instr) : i.word < 256 ^ i.opcode.length := by
  obtain ⟨-, -, hlt⟩ := encodeShape i
  calc i.word < 2 ^ (8 * i.opcode.length - i.opcode.padBits) := hlt
    _ ≤ 2 ^ (8 * i.opcode.length) := Nat.pow_le_pow_right (by decide) (Nat.sub_le _ _)
    _ = 256 ^ i.opcode.length := Nat.pow_mul 2 8 _

theorem littleEndian_encode (i : Instr) : littleEndian (encode i) = i.word := by
  rw [encode, littleEndian_bytesOfWord, Nat.mod_eq_of_lt (word_lt i)]

/-- Each field of the composed word holds its wrapped operand (30_encoding.md R57, R58, R65). -/
theorem instrOfWord_word (i : Instr) : instrOfWord i.opcode i.word = i.wrapped := by
  cases i with
  | ldc b c =>
    simp only [word_ldc, Instr.opcode, instrOfWord, Instr.wrapped, Field.extract_eq, Field.wrap, fieldB, fieldC16,
      Instr.ldc.injEq]
    omega
  | ldm b c =>
    simp only [word_ldm, Instr.opcode, instrOfWord, Instr.wrapped, Field.extract_eq, Field.wrap, fieldB, fieldC22,
      Instr.ldm.injEq]
    omega
  | stm b c =>
    simp only [word_stm, Instr.opcode, instrOfWord, Instr.wrapped, Field.extract_eq, Field.wrap, fieldB, fieldC22,
      Instr.stm.injEq]
    omega
  | max b c d =>
    simp only [word_max, Instr.opcode, instrOfWord, Instr.wrapped, Field.extract_eq, Field.wrap, fieldB, fieldC22,
      fieldD, Instr.max.injEq]
    omega

/-- An encoding starts with a byte that carries its opcode. -/
theorem encode_eq_cons (i : Instr) : ∃ first rest, encode i = first :: rest ∧ opcodeOfByte first = some i.opcode := by
  obtain ⟨n, hn⟩ := Nat.exists_eq_succ_of_ne_zero (opcode_length_pos i.opcode).ne'
  have htag : tagOf (BitVec.ofNat 8 i.word) = i.opcode.tag := by
    rw [tagOf_eq, BitVec.toNat_ofNat, ← tag_of_encode]
    omega
  exact ⟨_, _, by rw [encode, hn, bytesOfWord], by rw [opcodeOfByte, htag, opcodeOfTag_tag]⟩

/-- A recognised tag with enough bytes decodes: the other direction of `decode_eq_ok`. -/
theorem decode_cons_of_length_le {first : Byte} {rest : List Byte} {op : Opcode} (hop : opcodeOfByte first = some op)
    (hlen : op.length ≤ (first :: rest).length) :
    decode (first :: rest) = .ok (instrOfWord op (littleEndian ((first :: rest).take op.length))) := by
  simp only [decode, hop, if_neg (Nat.not_lt.mpr hlen)]

theorem decode_encode_append (i : Instr) (rest : List Byte) : decode (encode i ++ rest) = .ok i.wrapped := by
  obtain ⟨first, tail, henc, hop⟩ := encode_eq_cons i
  have hlen : i.opcode.length ≤ (encode i ++ rest).length := by simp
  have htake : (encode i ++ rest).take i.opcode.length = encode i := List.take_left' (encode_length i)
  rw [henc, List.cons_append] at hlen htake ⊢
  rw [decode_cons_of_length_le hop hlen, htake, ← henc, littleEndian_encode, instrOfWord_word]

theorem Field.wrap_of_fits {f : Field} {v : Nat} (h : fitsField f.width v = true) : f.wrap v = v := by
  rw [fitsField, decide_eq_true_eq] at h
  exact Nat.mod_eq_of_lt h

@[simp] theorem wrapped_opcode (i : Instr) : i.wrapped.opcode = i.opcode := by cases i <;> rfl

theorem wrapped_of_wf {i : Instr} (h : i.wf = true) : i.wrapped = i := by
  cases i with
  | ldc b c =>
    simp only [Instr.wf, Bool.and_eq_true] at h
    obtain ⟨hb, hc⟩ := h
    rw [Instr.wrapped, fieldB.wrap_of_fits hb, fieldC16.wrap_of_fits hc]
  | ldm b c =>
    simp only [Instr.wf, Bool.and_eq_true] at h
    obtain ⟨hb, hc⟩ := h
    rw [Instr.wrapped, fieldB.wrap_of_fits hb, fieldC22.wrap_of_fits hc]
  | stm b c =>
    simp only [Instr.wf, Bool.and_eq_true] at h
    obtain ⟨hb, hc⟩ := h
    rw [Instr.wrapped, fieldB.wrap_of_fits hb, fieldC22.wrap_of_fits hc]
  | max b c d =>
    simp only [Instr.wf, Bool.and_eq_true] at h
    obtain ⟨⟨hb, hc⟩, hd⟩ := h
    rw [Instr.wrapped, fieldB.wrap_of_fits hb, fieldC22.wrap_of_fits hc, fieldD.wrap_of_fits hd]

theorem decode_encode {i : Instr} (h : i.wf = true) : decode (encode i) = .ok i := by
  rw [← List.append_nil (encode i), decode_encode_append, wrapped_of_wf h]

end Sys2Proof

namespace Sys2Proof.Machine

/-! ## A stream of encodings frames back -/

/-- The framer records the bytes of an instruction that decodes and goes on after them (40_engine.md R91). -/
theorem frame_of_decode_ok {bytes : List Byte} {i : Instr} (h : decode bytes = .ok i) :
    frame bytes = bytes.take i.opcode.length :: frame (bytes.drop i.opcode.length) := by
  obtain ⟨op, first, rest, rfl, hop, hlen, rfl⟩ := decode_eq_ok h
  rw [instrOfWord_opcode]
  exact frame_cons_recorded (lengthOfTag_of_opcode hop) hlen

theorem frame_encode_append (i : Instr) (rest : List Byte) : frame (encode i ++ rest) = encode i :: frame rest := by
  rw [frame_of_decode_ok (decode_encode_append i rest), wrapped_opcode, List.take_left' (encode_length i),
    List.drop_left' (encode_length i)]

theorem encodeAll_cons (i : Instr) (is : List Instr) : encodeAll (i :: is) = encode i ++ encodeAll is := by
  rw [encodeAll, encodeAll, List.map_cons, List.flatten_cons]

theorem frame_encodeAll_append (is : List Instr) (rest : List Byte) :
    frame (encodeAll is ++ rest) = is.map encode ++ frame rest := by
  induction is with
  | nil => rfl
  | cons i is ih => rw [encodeAll_cons, List.append_assoc, frame_encode_append, ih, List.map_cons, List.cons_append]

theorem frame_encodeAll (is : List Instr) : frame (encodeAll is) = is.map encode := by
  rw [← List.append_nil (encodeAll is), frame_encodeAll_append, frame_nil, List.append_nil]

/-! ## What an instruction leaves unchanged -/

@[simp] theorem State.advance_cell (s : State) (a : Nat) : s.advance.cell a = s.cell a := rfl

/-- An instruction leaves every cell but its destination alone (20_memory.md R35). -/
theorem exec_cell_of_ne {i : Instr} {s t : State} {a : Nat} (h : exec i s = .next t) (ha : a ≠ destination i) :
    t.cell a = s.cell a := by
  rcases exec_cases i s with hs | ⟨v, -, hs⟩
  · cases hs.symm.trans h
    rfl
  · cases hs.symm.trans h
    rw [State.cell_setMem_write, if_neg ha]

/-- The destination is named by a 22-bit field (20_memory.md R37). -/
theorem destination_lt_of_wf {i : Instr} (h : i.wf = true) : destination i < 2 ^ 22 := by
  cases i with
  | ldc b c =>
    simp only [Instr.wf, Bool.and_eq_true, fitsField, decide_eq_true_eq] at h
    exact h.1
  | ldm b c =>
    simp only [Instr.wf, Bool.and_eq_true, fitsField, decide_eq_true_eq] at h
    exact h.1
  | stm b c =>
    simp only [Instr.wf, Bool.and_eq_true, fitsField, decide_eq_true_eq] at h
    exact h.2
  | max b c d =>
    simp only [Instr.wf, Bool.and_eq_true, fitsField, decide_eq_true_eq] at h
    obtain ⟨⟨-, hc⟩, -⟩ := h
    exact hc

/-- No step changes a cell that no field can name. -/
theorem step_cell_beyond_fields {s t : State} {a : Nat} (ha : 2 ^ 22 ≤ a) (h : step s = .next t) :
    t.cell a = s.cell a := by
  rcases step_eq_next h with ⟨-, rfl⟩ | ⟨u, -, rfl, -, rfl | ⟨i, hwf, hexec⟩⟩
  · rfl
  · exact State.advance_cell u a
  · rw [State.advance_cell]
    exact exec_cell_of_ne hexec ((destination_lt_of_wf hwf).trans_le ha).ne'

/-! ## An instruction depends on MEM_SIZE and memory alone -/

/-- `s` and `t` have the same number of cells and the same memory; program, pc and run flag may differ. -/
structure SameMemory (s t : State) : Prop where
  memSize : t.memSize = s.memSize
  mem : t.mem = s.mem

theorem SameMemory.cell {s t : State} (h : SameMemory s t) (a : Nat) : t.cell a = s.cell a := by
  rw [State.cell, State.cell, h.mem]

/-- The same write under the same bounds check keeps memories the same. -/
theorem SameMemory.writeIf {s t : State} (h : SameMemory s t) {c c' : Prop} [Decidable c] [Decidable c'] {a v v' : Nat}
    (hc : c' ↔ c) (hv : v' = v) :
    SameMemory (if c then s.setMem (s.mem.write a v) else s) (if c' then t.setMem (t.mem.write a v') else t) := by
  subst hv
  by_cases hcond : c
  · rw [if_pos hcond, if_pos (hc.mpr hcond)]
    exact ⟨h.memSize, by rw [State.setMem_mem, State.setMem_mem, h.mem]⟩
  · rw [if_neg hcond, if_neg (hcond ∘ hc.mp)]
    exact h

/-- States with the same memory have the same memory after the same instruction. -/
theorem exec_sameMemory (i : Instr) {s t : State} (h : SameMemory s t) :
    ∃ s' t', exec i s = .next s' ∧ exec i t = .next t' ∧ SameMemory s' t' := by
  cases i with
  | ldc b c => exact ⟨_, _, exec_ldc b c s, exec_ldc b c t, h.writeIf (by rw [h.memSize]) rfl⟩
  | ldm b c =>
    exact ⟨_, _, exec_ldm b c s, exec_ldm b c t, h.writeIf (by rw [h.memSize, h.cell]) (by rw [h.cell, h.cell])⟩
  | stm b c => exact ⟨_, _, exec_stm b c s, exec_stm b c t, h.writeIf (by rw [h.memSize]) (h.cell b)⟩
  | max b c d =>
    exact ⟨_, _, exec_max b c d s, exec_max b c d t, h.writeIf (by rw [h.memSize]) (by rw [h.cell, h.cell])⟩

/-! ## RUN executes a stream of encodings in order -/

theorem execAll_cons_of_exec {i : Instr} {s t : State} (is : List Instr) (h : exec i s = .next t) :
    execAll (i :: is) s = execAll is t := by
  simp only [execAll, h]

/-- A running machine whose next framed instruction encodes `i` executes `i` and advances pc. -/
theorem step_of_getElem?_encode {s u : State} {i : Instr} (hrunning : s.running = true) (hwf : i.wf = true)
    (hF : s.framed[s.pc]? = some (encode i)) (hexec : exec i s = .next u) :
    s.inLoop = true ∧ step s = .next u.advance := by
  have hpc : s.pc < s.framed.length := (List.getElem?_eq_some_iff.mp hF).1
  refine ⟨State.inLoop_iff.mpr ⟨hrunning, hpc⟩, ?_⟩
  rw [step_of_decode_ok (fetch_eq hrunning hF) (decode_encode hwf), hexec, thenAdvance_next]

/-- The induction over the instructions still to be run: from a state whose `F` goes on at pc with their encodings, the
loop goes in lockstep with executing them from any state `v` of the same memory. -/
theorem runLoop_encodings (is : List Instr) (s v : State) (hmem : SameMemory s v) (hrunning : s.running = true)
    (hF : s.framed.drop s.pc = is.map encode) (hwf : ∀ i ∈ is, i.wf = true) :
    ∃ t u, runLoop is.length s = .next t ∧ execAll is v = .next u ∧ SameMemory t u ∧ t.pc = s.pc + is.length := by
  induction is generalizing s v with
  | nil => exact ⟨s, v, rfl, rfl, hmem, rfl⟩
  | cons i is ih =>
    obtain ⟨hi, his⟩ := List.forall_mem_cons.mp hwf
    have hhead : s.framed[s.pc]? = some (encode i) := by rw [← List.head?_drop, hF, List.map_cons, List.head?_cons]
    have htail : s.framed.drop (s.pc + 1) = is.map encode := by rw [← List.tail_drop, hF, List.map_cons, List.tail_cons]
    obtain ⟨s', v', hs', hv', hmem'⟩ := exec_sameMemory i hmem
    obtain ⟨-, -, hframed, hpc, hrun⟩ := exec_sameButMemory hs'
    obtain ⟨hloop, hstep⟩ := step_of_getElem?_encode hrunning hi hhead hs'
    rw [List.length_cons, runLoop_succ_of_step _ hloop hstep, execAll_cons_of_exec is hv']
    obtain ⟨t, u, ht, hu, htu, hlast⟩ :=
      ih s'.advance v' ⟨hmem'.memSize, hmem'.mem⟩ (hrun.trans hrunning)
        (by rw [State.advance_framed, State.advance_pc, hframed, hpc, htail]) his
    exact ⟨t, u, ht, hu, htu, by rw [hlast, State.advance_pc, hpc]; omega⟩

/-! ## DUMP -/

/-- DUMP's pairs are the keys and values of the nonzero cells of its range (20_memory.md R44). -/
theorem mem_dump {s : State} {start stop : Nat} {key : String} {v : Nat} :
    (key, v) ∈ dump s start stop ↔
      ∃ a, start ≤ a ∧ a < min stop s.memSize ∧ s.cell a = v ∧ v ≠ 0 ∧ key = dumpKey a := by
  rw [dump, List.mem_filterMap]
  constructor
  · rintro ⟨a, ha, hcell⟩
    rw [List.mem_range'_1] at ha
    rw [Option.ite_none_right_eq_some, Option.some.injEq, Prod.mk.injEq] at hcell
    obtain ⟨hne, rfl, rfl⟩ := hcell
    exact ⟨a, ha.1, by omega, rfl, hne, rfl⟩
  · rintro ⟨a, hstart, hstop, rfl, hne, rfl⟩
    exact ⟨a, List.mem_range'_1.mpr ⟨hstart, by omega⟩, if_pos hne⟩

theorem dump_of_le {s : State} {start stop : Nat} (h : min stop s.memSize ≤ start) : dump s start stop = [] := by
  rw [dump, Nat.sub_eq_zero_of_le h, List.range'_zero, List.filterMap_nil]

theorem digitChar_toNat {d : Nat} (h : d < 10) : (digitChar d).toNat = 48 + d := by
  have hall : ∀ d < 10, (digitChar d).toNat = 48 + d := by decide
  exact hall d h

theorem digitsValue_append_digitChar (digits : List Char) {d : Nat} (h : d < 10) :
    digitsValue (digits ++ [digitChar d]) = 10 * digitsValue digits + d := by
  rw [digitsValue, List.foldl_append, List.foldl_cons, List.foldl_nil, digitChar_toNat h, Nat.add_sub_cancel_left,
    digitsValue]

theorem digitsValue_decimalDigits {fuel n : Nat} (h : n < fuel) : digitsValue (decimalDigits fuel n) = n := by
  induction fuel generalizing n with
  | zero => omega
  | succ fuel ih =>
    rw [decimalDigits]
    split
    · next hn =>
      exact (digitsValue_append_digitChar [] hn).trans (Nat.zero_add n)
    · next hn =>
      rw [digitsValue_append_digitChar _ (Nat.mod_lt n (by decide)), ih (by omega)]
      omega

/-- A decimal numeral has the value of its number (20_memory.md R45). -/
theorem digitsValue_decimalNumeral (n : Nat) : digitsValue (decimalNumeral n) = n :=
  digitsValue_decimalDigits n.lt_succ_self

theorem decimalNumeral_injective : Function.Injective decimalNumeral :=
  Function.LeftInverse.injective digitsValue_decimalNumeral

theorem dumpKey_injective : Function.Injective dumpKey := fun _ _ h =>
  decimalNumeral_injective (String.ofList_injective h)

/-- No key occurs twice: different addresses have different keys. -/
theorem dump_keys_nodup (s : State) (start stop : Nat) : ((dump s start stop).map Prod.fst).Nodup := by
  rw [dump, List.map_filterMap]
  refine List.Nodup.filterMap (fun a a' key ha ha' => dumpKey_injective ?_) List.nodup_range'
  simp only [Option.mem_def, Option.map_eq_some_iff, Option.ite_none_right_eq_some, Option.some.injEq] at ha ha'
  obtain ⟨-, ⟨-, rfl⟩, rfl⟩ := ha
  obtain ⟨-, ⟨-, rfl⟩, hkey⟩ := ha'
  exact hkey.symm

/-! ## The statements on memory and the program -/

/-- Settles O39: F is the encodings in order (`frame_encodeAll`), so the loop goes in lockstep with `execAll`. -/
theorem runExecutesTheProgramInOrder : Obligations.RunExecutesTheProgramInOrder := by
  intro is s hrunning hwf
  have hframe := frame_encodeAll is
  obtain ⟨t, u, hrun, hexec, hmem, hpc⟩ :=
    runLoop_encodings is (s.load (encodeAll is)).beginRun s ⟨rfl, rfl⟩ hrunning hframe hwf
  have hfuel : (s.load (encodeAll is)).framed.length = is.length := by rw [State.load_framed, hframe, List.length_map]
  refine ⟨t, u, by rw [run, hfuel, hrun], hexec, hmem.mem.symm, ?_⟩
  rw [hpc, State.beginRun_pc, Nat.zero_add]

/-- Settles O25, from the frame of an instruction. -/
theorem instructionsWriteOnlyTheirDestination : Obligations.InstructionsWriteOnlyTheirDestination :=
  fun _ _ _ h => ⟨exec_sameButMemory h, fun _ ha => exec_cell_of_ne h ha⟩

/-- Settles O30, from the frames of an instruction, a step and a RUN. -/
theorem programIsReadOnlyDuringExecution : Obligations.ProgramIsReadOnlyDuringExecution := by
  refine ⟨fun i s t h => ?_, fun s t h => ?_, fun s t h => ?_, State.load_framed⟩
  · obtain ⟨-, hprogram, hframed, -, -⟩ := exec_sameButMemory h
    exact ⟨hprogram, hframed⟩
  · have hsame := step_sameButMemoryAndPc h
    exact ⟨hsame.program, hsame.framed⟩
  · have hsame := run_sameButMemoryAndPc h
    exact ⟨hsame.program, hsame.framed⟩

/-- Settles O37: a decoded destination is below 2^22, so no step changes a cell beyond. -/
theorem cellsBeyondTheFieldsStayZero : Obligations.CellsBeyondTheFieldsStayZero :=
  fun _ _ hzero h a ha => (step_cell_beyond_fields ha h).trans (hzero a ha)

/-- Settles O42: keys differ because a decimal numeral determines its number. -/
theorem dumpReportsExactlyTheNonzeroCells : Obligations.DumpReportsExactlyTheNonzeroCells :=
  fun s start stop => ⟨fun _ _ => mem_dump, dump_keys_nodup s start stop, rfl, rfl, dump_of_le⟩

end Sys2Proof.Machine
end

section
/-! SUPPORT. The encoding (30_encoding.md): the Codec's round trip and the operands as slices of the word, the
assembler's written form, what a text that assembles gives, and what an assembly error names. -/

namespace Sys2Proof

/-! ## The Codec -/

/-- The low 5 bits of a word of bytes are the tag of its first byte (30_encoding.md R51, R63). -/
theorem littleEndian_take_mod_tag (first : Byte) (rest : List Byte) {n : Nat} (hn : 0 < n) :
    littleEndian ((first :: rest).take n) % 2 ^ 5 = tagOf first := by
  obtain ⟨k, rfl⟩ := Nat.exists_eq_succ_of_ne_zero hn.ne'
  rw [List.take_succ_cons, littleEndian, tagOf_eq]
  omega

/-- `decode_eq_ok` on the word: the decoded instruction is that of the first bytes, whose low 5 bits are its tag. -/
theorem decode_eq_ok_word {s : List Byte} {i : Instr} (h : decode s = .ok i) :
    ∃ op, op.length ≤ s.length ∧ op.tag = littleEndian (s.take op.length) % 2 ^ 5 ∧
      i = instrOfWord op (littleEndian (s.take op.length)) := by
  obtain ⟨op, first, rest, rfl, hop, hlen, rfl⟩ := decode_eq_ok h
  exact ⟨op, hlen, by rw [littleEndian_take_mod_tag _ _ (opcode_length_pos op), tag_of_opcodeOfTag hop], rfl⟩

/-- The length table is undefined on every tag but the four (30_encoding.md R56, R62). -/
theorem lengthOfTag_eq_none {tag : Nat} (hldc : tag ≠ 13) (hldm : tag ≠ 31) (hstm : tag ≠ 7) (hmax : tag ≠ 28) :
    lengthOfTag tag = none := by
  rw [lengthOfTag, opcodeOfTag, if_neg hldc, if_neg hldm, if_neg hstm, if_neg hmax, Option.map_none]

end Sys2Proof

namespace Sys2Proof.Machine

/-! ## Mnemonics -/

/-- A mnemonic is read through its lower-case form only. -/
theorem opcodeOfMnemonic_congr {token token' : List Char} (h : token.map Char.toLower = token'.map Char.toLower) :
    opcodeOfMnemonic token = opcodeOfMnemonic token' := by
  simp only [opcodeOfMnemonic, h]

theorem opcodeOfMnemonic_opcodeName (op : Opcode) : opcodeOfMnemonic (opcodeName op) = some op := by
  cases op <;> decide

theorem map_toLower_of_opcodeOfMnemonic {token : List Char} {op : Opcode} (h : opcodeOfMnemonic token = some op) :
    token.map Char.toLower = (opcodeName op).map Char.toLower := by
  simp only [opcodeOfMnemonic] at h
  split_ifs at h with hlower hlower hlower hlower <;> cases h <;> exact hlower

theorem map_map_of_forall_eq {f g k : Char → Char} (h : ∀ c, f (g c) = k c) (token : List Char) :
    (token.map g).map f = token.map k := by
  rw [List.map_map]
  exact List.map_congr_left fun c _ => h c

@[simp] theorem map_toUpper_opcodeName (op : Opcode) : (opcodeName op).map Char.toUpper = opcodeName op := by
  cases op <;> decide

/-- A token names an opcode exactly when its upper-case form is the opcode's name (30_encoding.md R68). -/
theorem opcodeOfMnemonic_eq_some {token : List Char} {op : Opcode} :
    opcodeOfMnemonic token = some op ↔ token.map Char.toUpper = opcodeName op := by
  constructor
  · intro h
    have hupper := map_map_of_forall_eq Char.toUpper_toLower_eq_toUpper
    rw [← hupper, map_toLower_of_opcodeOfMnemonic h, hupper, map_toUpper_opcodeName]
  · intro h
    rw [← opcodeOfMnemonic_opcodeName op, ← h]
    exact opcodeOfMnemonic_congr (map_map_of_forall_eq Char.toLower_toUpper_eq_toLower token).symm

/-! ## Operands -/

theorem decimalNumeral_ne_nil (n : Nat) : decimalNumeral n ≠ [] := by
  rw [decimalNumeral, decimalDigits]
  split
  · exact List.cons_ne_nil _ _
  · exact List.append_ne_nil_of_right_ne_nil _ (List.cons_ne_nil _ _)

theorem digitChar_isDigit {d : Nat} (h : d < 10) : (digitChar d).isDigit = true := by
  have hall : ∀ d < 10, (digitChar d).isDigit = true := by decide
  exact hall d h

theorem isDigit_of_mem_decimalDigits {fuel n : Nat} {c : Char} (h : c ∈ decimalDigits fuel n) : c.isDigit = true := by
  induction fuel generalizing n with
  | zero => cases h
  | succ fuel ih =>
    rw [decimalDigits] at h
    split at h
    · next hn =>
      rw [List.mem_singleton.mp h]
      exact digitChar_isDigit hn
    · rcases List.mem_append.mp h with h | h
      · exact ih h
      · rw [List.mem_singleton.mp h]
        exact digitChar_isDigit (Nat.mod_lt n (by decide))

/-- A decimal numeral is an operand token, read as its number (30_encoding.md R69). -/
theorem parseOperand_decimalNumeral (n : Nat) : parseOperand (decimalNumeral n) = some n := by
  have hdigits : (decimalNumeral n).all Char.isDigit = true :=
    List.all_eq_true.mpr fun _ hc => isDigit_of_mem_decimalDigits hc
  have hne : (decimalNumeral n).isEmpty = false := by simp [decimalNumeral_ne_nil]
  simp [parseOperand, hdigits, hne, digitsValue_decimalNumeral]

/-- The operand tokens parse exactly when each is an integer, and then to their values in order. -/
theorem parseOperands_eq_ok {line : Nat} {tokens : List (List Char)} {vs : List Nat} :
    parseOperands line tokens = .ok vs ↔ List.Forall₂ (fun token v => parseOperand token = some v) tokens vs := by
  induction tokens generalizing vs with
  | nil => simp [parseOperands, eq_comm]
  | cons token rest ih =>
    rw [parseOperands]
    cases hv : parseOperand token with
    | none => simp [List.forall₂_cons_left_iff, hv]
    | some v =>
      cases hrest : parseOperands line rest with
      | ok more => simp [List.forall₂_cons_left_iff, hv, ← ih, hrest, eq_comm (a := v :: more)]
      | error e => simp [List.forall₂_cons_left_iff, ← ih, hrest]

/-- An error in the operands is of a token among them that is no integer (30_encoding.md R70). -/
theorem parseOperands_eq_error {line : Nat} {tokens : List (List Char)} {e : AsmError}
    (h : parseOperands line tokens = .error e) :
    ∃ token ∈ tokens, parseOperand token = none ∧ e = .malformedOperand line token := by
  induction tokens with
  | nil => cases h
  | cons token rest ih =>
    rw [parseOperands] at h
    split at h
    · next hnone => exact ⟨token, List.mem_cons_self, hnone, (Except.error.inj h).symm⟩
    · split at h
      · cases h
      · next hrest =>
        obtain ⟨bad, hmem, hnone, rfl⟩ := ih (hrest.trans h)
        exact ⟨bad, List.mem_cons_of_mem _ hmem, hnone, rfl⟩

/-! ## Lines -/

/-- A line gives an instruction exactly when its first token is a mnemonic and the others are integers
(30_encoding.md R69). -/
theorem parseLine_eq_ok_some {line : Nat} {text : List Char} {src : SourceInstr} :
    parseLine line text = .ok (some src) ↔
      ∃ mnemonic operands, tokensOf text = mnemonic :: operands ∧ opcodeOfMnemonic mnemonic = some src.opcode ∧
        parseOperands line operands = .ok src.operands ∧ src.line = line := by
  constructor
  · intro h
    rw [parseLine] at h
    split at h
    · cases h
    · next mnemonic operands htokens =>
      split at h
      · cases h
      · next op hop =>
        split at h
        · next vs hvs =>
          cases h
          exact ⟨mnemonic, operands, htokens, hop, hvs, rfl⟩
        · cases h
  · rintro ⟨mnemonic, operands, htokens, hop, hvs, rfl⟩
    simp only [parseLine, htokens, hop, hvs]

/-- An error in a line is of its first token, which is no mnemonic, or of an operand token that is no integer
(30_encoding.md R70, R71). -/
theorem parseLine_eq_error {line : Nat} {text : List Char} {e : AsmError} (h : parseLine line text = .error e) :
    ∃ mnemonic operands, tokensOf text = mnemonic :: operands ∧
      ((opcodeOfMnemonic mnemonic = none ∧ e = .unknownMnemonic line mnemonic) ∨
        ∃ token ∈ operands, parseOperand token = none ∧ e = .malformedOperand line token) := by
  rw [parseLine] at h
  split at h
  · cases h
  · next mnemonic operands htokens =>
    refine ⟨mnemonic, operands, htokens, ?_⟩
    split at h
    · next hnone => exact .inl ⟨hnone, (Except.error.inj h).symm⟩
    · split at h
      · cases h
      · next hoperands =>
        cases h
        exact .inr (parseOperands_eq_error hoperands)

theorem parseLines_cons_eq_ok {line : Nat} {text : List Char} {rest : List (List Char)} {srcs : List SourceInstr} :
    parseLines line (text :: rest) = .ok srcs ↔
      ∃ parsed more, parseLine line text = .ok parsed ∧ parseLines (line + 1) rest = .ok more ∧
        srcs = parsed.toList ++ more := by
  rw [parseLines]
  cases hline : parseLine line text with
  | error e => simp
  | ok parsed =>
    cases hrest : parseLines (line + 1) rest with
    | error e => simp
    | ok more => simp [eq_comm]

/-- Every parsed instruction is that of a line, numbered from `line` on. -/
theorem exists_line_of_mem_parseLines {line : Nat} {lines : List (List Char)} {srcs : List SourceInstr}
    (h : parseLines line lines = .ok srcs) {src : SourceInstr} (hsrc : src ∈ srcs) :
    ∃ k source, lines[k]? = some source ∧ parseLine (line + k) source = .ok (some src) := by
  induction lines generalizing line srcs with
  | nil =>
    cases h
    cases hsrc
  | cons text rest ih =>
    obtain ⟨parsed, more, hline, hrest, rfl⟩ := parseLines_cons_eq_ok.mp h
    rcases List.mem_append.mp hsrc with hsrc | hsrc
    · rw [Option.mem_toList.mp hsrc] at hline
      exact ⟨0, text, rfl, hline⟩
    · obtain ⟨k, source, hk, hparse⟩ := ih hrest hsrc
      exact ⟨k + 1, source, hk, by rw [← hparse, Nat.add_right_comm, Nat.add_assoc]⟩

/-- A parse error is that of a line, numbered from `line` on. -/
theorem exists_line_of_parseLines_eq_error {line : Nat} {lines : List (List Char)} {e : AsmError}
    (h : parseLines line lines = .error e) :
    ∃ k source, lines[k]? = some source ∧ parseLine (line + k) source = .error e := by
  induction lines generalizing line with
  | nil => cases h
  | cons text rest ih =>
    rw [parseLines] at h
    split at h
    · next hline =>
      cases h
      exact ⟨0, text, rfl, hline⟩
    · split at h
      · cases h
      · next hrest =>
        obtain ⟨k, source, hk, hparse⟩ := ih (hrest.trans h)
        exact ⟨k + 1, source, hk, by rw [← hparse, Nat.add_right_comm, Nat.add_assoc]⟩

/-- The lines of a text are counted from 1 (30_encoding.md R66). -/
theorem parseSource_eq_error {text : List Char} {e : AsmError} (h : parseSource text = .error e) :
    ∃ line source, (splitAtAll isLineFeed text)[line - 1]? = some source ∧ 1 ≤ line ∧
      parseLine line source = .error e := by
  obtain ⟨k, source, hsource, hline⟩ := exists_line_of_parseLines_eq_error h
  exact ⟨1 + k, source, by rwa [Nat.add_sub_cancel_left], Nat.le_add_right 1 k, hline⟩

/-- The lines of a text are counted from 1, and each parsed instruction holds the number of its own. -/
theorem exists_line_of_mem_parseSource {text : List Char} {srcs : List SourceInstr} (h : parseSource text = .ok srcs)
    {src : SourceInstr} (hsrc : src ∈ srcs) :
    ∃ source, (splitAtAll isLineFeed text)[src.line - 1]? = some source ∧ 1 ≤ src.line ∧
      parseLine src.line source = .ok (some src) := by
  obtain ⟨k, source, hsource, hline⟩ := exists_line_of_mem_parseLines h hsrc
  obtain ⟨-, -, -, -, -, hnumber⟩ := parseLine_eq_ok_some.mp hline
  rw [hnumber]
  exact ⟨source, by rwa [Nat.add_sub_cancel_left], Nat.le_add_right 1 k, hline⟩

/-! ## Lowering -/

/-- `i` is the IR instruction of the parsed line `src`. -/
def LowersTo (src : SourceInstr) (i : Instr) : Prop := i.opcode = src.opcode ∧ operandsOf i = src.operands

/-- An instruction is determined by its opcode and operands. -/
theorem ofOperands_eq_some {op : Opcode} {vs : List Nat} {i : Instr} :
    Instr.ofOperands op vs = some i ↔ i.opcode = op ∧ operandsOf i = vs := by
  constructor
  · intro h
    unfold Instr.ofOperands at h
    split at h <;> cases h <;> exact ⟨rfl, rfl⟩
  · rintro ⟨rfl, rfl⟩
    cases i <;> rfl

/-- Lowering answers exactly the instructions of the lines, one for each. -/
theorem lowerAll_eq_ok {srcs : List SourceInstr} {is : List Instr} :
    lowerAll srcs = .ok is ↔ List.Forall₂ LowersTo srcs is := by
  induction srcs generalizing is with
  | nil => simp [lowerAll, eq_comm]
  | cons src rest ih =>
    rw [lowerAll, List.forall₂_cons_left_iff]
    simp only [LowersTo, ← ofOperands_eq_some]
    cases hi : Instr.ofOperands src.opcode src.operands with
    | none => simp
    | some i =>
      cases hrest : lowerAll rest with
      | ok more => simp [← ih, hrest, eq_comm]
      | error e => simp [← ih, hrest]

/-- A lowering error is of a line whose operand count is not its opcode's arity (30_encoding.md R72). -/
theorem lowerAll_eq_error {srcs : List SourceInstr} {e : AsmError} (h : lowerAll srcs = .error e) :
    ∃ src ∈ srcs, src.operands.length ≠ src.opcode.arity ∧ e = .arityMismatch src.line := by
  induction srcs with
  | nil => cases h
  | cons src rest ih =>
    rw [lowerAll] at h
    split at h
    · next hnone =>
      refine ⟨src, List.mem_cons_self, ?_, (Except.error.inj h).symm⟩
      rw [Ne, ← ofOperands_isSome, hnone]
      decide
    · split at h
      · cases h
      · next hrest =>
        obtain ⟨bad, hmem, hbad⟩ := ih (hrest.trans h)
        exact ⟨bad, List.mem_cons_of_mem _ hmem, hbad⟩

/-! ## The assembler -/

/-- A text assembles exactly when it parses and lowers, and then to the encodings (30_encoding.md R73). -/
theorem assembleChars_eq_ok {text : List Char} {bytes : List Byte} :
    assembleChars text = .ok bytes ↔
      ∃ srcs is, parseSource text = .ok srcs ∧ lowerAll srcs = .ok is ∧ bytes = encodeAll is := by
  rw [assembleChars]
  cases hparse : parseSource text with
  | error e => simp
  | ok srcs =>
    cases hlower : lowerAll srcs with
    | error e => simp [hlower]
    | ok is => simp [hlower, eq_comm]

/-- An assembly error is that of the parse, or of lowering after the whole text parsed (30_encoding.md R72). -/
theorem assembleChars_eq_error {text : List Char} {e : AsmError} :
    assembleChars text = .error e ↔
      parseSource text = .error e ∨ ∃ srcs, parseSource text = .ok srcs ∧ lowerAll srcs = .error e := by
  rw [assembleChars]
  cases hparse : parseSource text with
  | error e => simp
  | ok srcs =>
    cases hlower : lowerAll srcs with
    | error e => simp [hlower]
    | ok is => simp [hlower]

/-! ## The written form -/

/-- The model's split of a text is the library's. -/
theorem splitAtAll_eq_splitOnP (sep : Char → Bool) (text : List Char) : splitAtAll sep text = text.splitOnP sep := by
  induction text with
  | nil => rw [splitAtAll, List.splitOnP_nil]
  | cons c rest ih =>
    rw [splitAtAll, List.splitOnP_cons_eq_if_modifyHead, ih]
    split
    · rfl
    · cases h : rest.splitOnP sep with
      | nil => exact absurd h (List.splitOnP_ne_nil sep rest)
      | cons piece pieces => rfl

theorem isAlphanum_of_mem_opcodeName {op : Opcode} : ∀ c ∈ opcodeName op, c.isAlphanum = true :=
  List.all_eq_true.mp (by cases op <;> rfl)

theorem isAlphanum_of_mem_decimalNumeral {n : Nat} {c : Char} (h : c ∈ decimalNumeral n) : c.isAlphanum = true := by
  rw [Char.isAlphanum, isDigit_of_mem_decimalDigits h, Bool.or_true]

/-- An instruction is written with letters, digits and spaces only. -/
theorem not_mem_renderInstr (i : Instr) {c : Char} (hspace : c ≠ ' ') (halnum : c.isAlphanum = false) :
    c ∉ renderInstr i := by
  rw [renderInstr, List.mem_append, List.mem_flatMap]
  rintro (hname | ⟨v, -, hoperand⟩)
  · cases halnum.symm.trans (isAlphanum_of_mem_opcodeName c hname)
  · rcases List.mem_cons.mp hoperand with rfl | hdigit
    · exact hspace rfl
    · cases halnum.symm.trans (isAlphanum_of_mem_decimalNumeral hdigit)

theorem isBlank_of_isAlphanum {c : Char} (h : c.isAlphanum = true) : isBlank c = false := by
  rw [isBlank, Bool.or_eq_false_iff, beq_eq_false_iff_ne, beq_eq_false_iff_ne]
  constructor
  · rintro rfl
    exact absurd h (by decide)
  · rintro rfl
    exact absurd h (by decide)

theorem stripReturn_renderInstr (i : Instr) : stripReturn (renderInstr i) = renderInstr i :=
  if_neg fun h => not_mem_renderInstr i (by decide) (by decide) (List.mem_of_getLast? h)

theorem stripComment_renderInstr (i : Instr) : stripComment (renderInstr i) = renderInstr i :=
  List.takeWhile_eq_self_iff.mpr fun _ hc =>
    bne_iff_ne.mpr (ne_of_mem_of_not_mem hc (not_mem_renderInstr i (by decide) (by decide)))

/-- Operands written after a name, each behind one space, come apart into the name and the numerals. -/
theorem splitAtAll_written_operands {name : List Char} (vs : List Nat) (hname : ∀ c ∈ name, isBlank c = false) :
    splitAtAll isBlank (name ++ vs.flatMap fun v => ' ' :: decimalNumeral v) = name :: vs.map decimalNumeral := by
  rw [splitAtAll_eq_splitOnP]
  induction vs generalizing name with
  | nil => rw [List.flatMap_nil, List.append_nil, List.splitOnP_eq_singleton hname, List.map_nil]
  | cons v vs ih =>
    rw [List.flatMap_cons, List.cons_append, List.splitOnP_append_cons_of_forall_mem hname _ rfl,
      ih fun c hc => isBlank_of_isAlphanum (isAlphanum_of_mem_decimalNumeral hc), List.map_cons]

theorem tokensOf_renderInstr (i : Instr) :
    tokensOf (renderInstr i) = opcodeName i.opcode :: (operandsOf i).map decimalNumeral := by
  rw [tokensOf, stripReturn_renderInstr, stripComment_renderInstr, renderInstr,
    splitAtAll_written_operands _ fun c hc => isBlank_of_isAlphanum (isAlphanum_of_mem_opcodeName c hc)]
  refine List.filter_eq_self.mpr (List.forall_mem_cons.mpr ⟨?_, ?_⟩)
  · cases i.opcode <;> rfl
  · rintro _ hnumeral
    obtain ⟨v, -, rfl⟩ := List.mem_map.mp hnumeral
    simp [decimalNumeral_ne_nil]

theorem parseLine_renderInstr (line : Nat) (i : Instr) :
    parseLine line (renderInstr i) = .ok (some { line := line, opcode := i.opcode, operands := operandsOf i }) :=
  parseLine_eq_ok_some.mpr ⟨_, _, tokensOf_renderInstr i, opcodeOfMnemonic_opcodeName _,
    parseOperands_eq_ok.mpr (List.forall₂_map_left_iff.mpr
      (List.forall₂_same.mpr fun v _ => parseOperand_decimalNumeral v)), rfl⟩

/-- One line per instruction, and the empty one after the last line feed. -/
theorem splitAtAll_renderAll (is : List Instr) :
    splitAtAll isLineFeed (renderAll is) = is.map renderInstr ++ [[]] := by
  induction is with
  | nil => rfl
  | cons i is ih =>
    have hline : ∀ c ∈ renderInstr i, isLineFeed c = false := fun _ hc =>
      beq_false_of_ne (ne_of_mem_of_not_mem hc (not_mem_renderInstr i (by decide) (by decide)))
    rw [splitAtAll_eq_splitOnP] at ih ⊢
    rw [renderAll, List.flatMap_cons, List.append_assoc, List.singleton_append,
      List.splitOnP_append_cons_of_forall_mem hline _ rfl]
    exact congrArg (renderInstr i :: ·) ih

/-- The written lines, numbered from any line on, parse to instructions that lower to the written ones. -/
theorem parseLines_written (is : List Instr) (line : Nat) :
    ∃ srcs, parseLines line (is.map renderInstr ++ [[]]) = .ok srcs ∧ List.Forall₂ LowersTo srcs is := by
  induction is generalizing line with
  | nil => exact ⟨[], rfl, .nil⟩
  | cons i is ih =>
    obtain ⟨srcs, hparse, hlower⟩ := ih (line + 1)
    exact ⟨_, parseLines_cons_eq_ok.mpr ⟨_, srcs, parseLine_renderInstr line i, hparse, rfl⟩,
      .cons ⟨rfl, rfl⟩ hlower⟩

/-! ## The statements on the encoding -/

/-- Settles O1: what follows an encoding is ignored, and a well-formed instruction wraps to itself. -/
theorem decodeOfEncodeIsTheInstruction : Obligations.DecodeOfEncodeIsTheInstruction :=
  fun i rest hwf => by rw [decode_encode_append, wrapped_of_wf hwf]

/-- Settles O12, the induction over the instructions of `frame_encodeAll_append`. -/
theorem encodedStreamsFrameToTheirInstructions : Obligations.EncodedStreamsFrameToTheirInstructions :=
  frame_encodeAll_append

/-- Settles O4, by the layout of each opcode: a field is a quotient and a remainder of the word. -/
theorem decodedOperandsAreWordSlices : Obligations.DecodedOperandsAreWordSlices := by
  intro s i h
  have hwf := wf_of_decode_ok h
  obtain ⟨op, hlen, htag, rfl⟩ := decode_eq_ok_word h
  refine ⟨hwf, ?_⟩
  rw [instrOfWord_opcode]
  refine ⟨hlen, htag, ?_⟩
  cases op with
  | ldc => exact ⟨Field.extract_eq fieldB _, Field.extract_eq fieldC16 _⟩
  | ldm => exact ⟨Field.extract_eq fieldB _, Field.extract_eq fieldC22 _⟩
  | stm => exact ⟨Field.extract_eq fieldB _, Field.extract_eq fieldC22 _⟩
  | max => exact ⟨Field.extract_eq fieldB _, Field.extract_eq fieldC22 _, Field.extract_eq fieldD _⟩

/-- Settles O5: the four rows by the table's definition, the other tags by `lengthOfTag_eq_none`. -/
theorem lengthTableIsDefinedOnFourTags : Obligations.LengthTableIsDefinedOnFourTags :=
  ⟨rfl, rfl, rfl, rfl, fun _ _ => lengthOfTag_eq_none, rfl, rfl, rfl, rfl, rfl, rfl, rfl, rfl⟩

/-- Settles O7, by running `decode` on each of the six words. -/
theorem specWordsDecode : Obligations.SpecWordsDecode := by
  refine ⟨?_, ?_, ?_, ?_, ?_, ?_⟩ <;> decide

/-- Settles O45: the written text splits into its lines, each line into its name and numerals, and these parse and lower
back to the instruction. -/
theorem writtenInstructionsAssemble : Obligations.WrittenInstructionsAssemble := by
  intro is
  obtain ⟨srcs, hparse, hlower⟩ := parseLines_written is 1
  exact assembleChars_eq_ok.mpr
    ⟨srcs, is, by rw [parseSource, splitAtAll_renderAll, hparse], lowerAll_eq_ok.mpr hlower, rfl⟩

/-- Settles O46: lowering pairs each parsed line with its instruction, and a stream of encodings frames back. -/
theorem assembledStreamsFrameToTheirLines : Obligations.AssembledStreamsFrameToTheirLines := by
  intro text bytes h
  obtain ⟨srcs, is, hparse, hlower, rfl⟩ := assembleChars_eq_ok.mp h
  have hlines := lowerAll_eq_ok.mp hlower
  refine ⟨srcs, is, hparse, hlower, rfl, frame_encodeAll is, hlines.length_eq.symm, fun k src i hsrc hi => ?_⟩
  obtain ⟨hk, rfl⟩ := List.getElem?_eq_some_iff.mp hsrc
  obtain ⟨hk', rfl⟩ := List.getElem?_eq_some_iff.mp hi
  exact hlines.get hk hk'

/-- Settles O48: a parse error comes from a line's tokens, an arity error from a line that parsed. -/
theorem assemblyErrorsNameTheirLineAndToken : Obligations.AssemblyErrorsNameTheirLineAndToken := by
  intro text e h
  rcases assembleChars_eq_error.mp h with hparse | ⟨srcs, hparse, hlower⟩
  · obtain ⟨line, source, hsource, hpos, hline⟩ := parseSource_eq_error hparse
    obtain ⟨mnemonic, operands, htokens, ⟨hop, rfl⟩ | ⟨token, hmem, hnone, rfl⟩⟩ := parseLine_eq_error hline
    · exact ⟨source, hsource, hpos, by rw [htokens, List.head?_cons], hop⟩
    · exact ⟨source, hsource, hpos, by rwa [htokens, List.tail_cons], hnone⟩
  · obtain ⟨src, hsrc, harity, rfl⟩ := lowerAll_eq_error hlower
    obtain ⟨source, hsource, hpos, hline⟩ := exists_line_of_mem_parseSource hparse hsrc
    obtain ⟨mnemonic, operands, htokens, hop, hoperands, -⟩ := parseLine_eq_ok_some.mp hline
    refine ⟨source, hsource, hpos, mnemonic, src.opcode, by rw [htokens, List.head?_cons], hop, ?_⟩
    rwa [htokens, List.tail_cons, (parseOperands_eq_ok.mp hoperands).length_eq]

/-- Settles O50: case changes leave the lower-case form alone, and the upper-case form determines it. -/
theorem mnemonicsAreCaseInsensitive : Obligations.MnemonicsAreCaseInsensitive :=
  ⟨fun token => ⟨opcodeOfMnemonic_congr (map_map_of_forall_eq Char.toLower_toLower_eq_toLower token),
    opcodeOfMnemonic_congr (map_map_of_forall_eq Char.toLower_toUpper_eq_toLower token)⟩,
    fun _ _ => opcodeOfMnemonic_eq_some⟩

end Sys2Proof.Machine
end

section
/-! SUPPORT. The engine (40_engine.md): the framer beside `decode`, framed slices as slices of the stream, and RUN as
exactly N steps that depend on memory and F alone. -/

namespace Sys2Proof

/-! ## What `decode` reads -/

/-- A recognised tag with enough bytes left decodes to an instruction of the table's length (30_encoding.md R59). -/
theorem exists_decode_of_lengthOfTag {first : Byte} {rest : List Byte} {n : Nat}
    (h : lengthOfTag (tagOf first) = some n) (hlen : n ≤ (first :: rest).length) :
    ∃ i, decode (first :: rest) = .ok i ∧ i.opcode.length = n := by
  obtain ⟨op, hop, rfl⟩ := Option.map_eq_some_iff.mp h
  exact ⟨_, decode_cons_of_length_le hop hlen, by rw [instrOfWord_opcode]⟩

/-- `decode` reads no byte beyond its instruction's length (30_encoding.md R59). -/
theorem decode_take {s : List Byte} {i : Instr} (h : decode s = .ok i) : decode (s.take i.opcode.length) = .ok i := by
  obtain ⟨op, first, rest, rfl, hop, hlen, rfl⟩ := decode_eq_ok h
  rw [instrOfWord_opcode]
  have hcons : (first :: rest).take op.length = first :: rest.take (op.length - 1) :=
    List.take_cons (opcode_length_pos op)
  have hlen' : op.length ≤ ((first :: rest).take op.length).length := by rw [List.length_take_of_le hlen]
  have hdec := decode_cons_of_length_le hop (hcons ▸ hlen')
  rwa [← hcons, List.take_take, Nat.min_self] at hdec

/-- Why `decode` answers a condition at a byte: its tag is unrecognised, or too few bytes are left. -/
theorem decode_cons_eq_error {first : Byte} {rest : List Byte} {c : DecodeCondition}
    (h : decode (first :: rest) = .error c) :
    (c = .unknownOpcode ∧ lengthOfTag (tagOf first) = none) ∨
      (c = .truncatedInstruction ∧ ∃ n, lengthOfTag (tagOf first) = some n ∧ (first :: rest).length < n) := by
  rw [decode] at h
  split at h
  · next hop =>
    cases h
    exact .inl ⟨rfl, Option.map_eq_none_iff.mpr hop⟩
  · next op hop =>
    split at h
    · next hlen =>
      cases h
      exact .inr ⟨rfl, op.length, lengthOfTag_of_opcode hop, hlen⟩
    · cases h

end Sys2Proof

namespace Sys2Proof.Machine

/-! ## The framer -/

theorem frame_encode (i : Instr) : frame (encode i) = [encode i] := by
  rw [← List.append_nil (encode i), frame_encode_append, frame_nil, List.append_nil]

/-- UnknownOpcode: the framer skips exactly one byte (40_engine.md R92). -/
theorem frame_of_decode_unknownOpcode {s : List Byte} (h : decode s = .error .unknownOpcode) :
    frame s = frame s.tail := by
  cases s with
  | nil => rfl
  | cons first rest =>
    obtain ⟨-, hnone⟩ | ⟨hc, -⟩ := decode_cons_eq_error h
    · exact frame_cons_unknown rest hnone
    · cases hc

/-- TruncatedInstruction: the framer stops (40_engine.md R93). -/
theorem frame_of_decode_truncatedInstruction {s : List Byte} (h : decode s = .error .truncatedInstruction) :
    frame s = [] := by
  cases s with
  | nil => rfl
  | cons first rest =>
    obtain ⟨hc, -⟩ | ⟨-, n, hn, hlen⟩ := decode_cons_eq_error h
    · cases hc
    · exact frame_cons_truncated hn hlen

/-- Every framed slice is the bytes of one instruction (40_engine.md R94), along the framer's scan. -/
theorem exists_decode_of_mem_frame {program slice : List Byte} (h : slice ∈ frame program) :
    ∃ i, decode slice = .ok i ∧ slice.length = i.opcode.length := by
  induction program using frame_scan_induction with
  | nil => cases h
  | unknown first rest hnone ih => exact ih (frame_cons_unknown rest hnone ▸ h)
  | truncated first rest n hn hlen =>
    rw [frame_cons_truncated hn hlen] at h
    cases h
  | recorded first rest n hn hlen ih =>
    rw [frame_cons_recorded hn hlen] at h
    rcases List.mem_cons.mp h with rfl | h
    · obtain ⟨i, hdec, rfl⟩ := exists_decode_of_lengthOfTag hn hlen
      exact ⟨i, decode_take hdec, List.length_take_of_le hlen⟩
    · exact ih h

/-- Each pair of `placed`, an offset and a slice, is the bytes of the stream at that offset, and the pairs are disjoint
and in increasing offset order (40_engine.md R94). -/
structure PlacedIn (program : List Byte) (placed : List (Nat × List Byte)) : Prop where
  slice_eq : ∀ p ∈ placed, p.2 = (program.drop p.1).take p.2.length
  end_le : ∀ p ∈ placed, p.1 + p.2.length ≤ program.length
  ordered : placed.Pairwise fun p q => p.1 + p.2.length ≤ q.1

theorem PlacedIn.end_le_of_lt {program : List Byte} {placed : List (Nat × List Byte)} {p q : Nat × List Byte}
    {k k' : Nat} (h : PlacedIn program placed) (hp : placed[k]? = some p) (hq : placed[k']? = some q) (hk : k < k') :
    p.1 + p.2.length ≤ q.1 := by
  obtain ⟨hlt, rfl⟩ := List.getElem?_eq_some_iff.mp hp
  obtain ⟨hlt', rfl⟩ := List.getElem?_eq_some_iff.mp hq
  exact List.pairwise_iff_getElem.mp h.ordered k k' hlt hlt' hk

theorem PlacedIn.nil (program : List Byte) : PlacedIn program [] :=
  ⟨fun _ hp => absurd hp List.not_mem_nil, fun _ hp => absurd hp List.not_mem_nil, .nil⟩

/-- The pairs with every offset `n` higher. -/
def shiftOffsets (n : Nat) (placed : List (Nat × List Byte)) : List (Nat × List Byte) :=
  placed.map fun p => (n + p.1, p.2)

theorem shiftOffsets_map_snd (n : Nat) (placed : List (Nat × List Byte)) :
    (shiftOffsets n placed).map Prod.snd = placed.map Prod.snd := by
  rw [shiftOffsets, List.map_map]
  rfl

theorem le_of_mem_shiftOffsets {n : Nat} {placed : List (Nat × List Byte)} {p : Nat × List Byte}
    (hp : p ∈ shiftOffsets n placed) : n ≤ p.1 := by
  obtain ⟨q, -, rfl⟩ := List.mem_map.mp hp
  exact Nat.le_add_right n q.1

/-- What lies in the stream after its first `n` bytes lies in the stream, `n` further on. -/
theorem PlacedIn.shift {program : List Byte} {n : Nat} {placed : List (Nat × List Byte)} (hn : n ≤ program.length)
    (h : PlacedIn (program.drop n) placed) : PlacedIn program (shiftOffsets n placed) where
  slice_eq p hp := by
    obtain ⟨q, hq, rfl⟩ := List.mem_map.mp hp
    rw [← List.drop_drop]
    exact h.slice_eq q hq
  end_le p hp := by
    obtain ⟨q, hq, rfl⟩ := List.mem_map.mp hp
    have hend := h.end_le q hq
    rw [List.length_drop] at hend
    dsimp only
    omega
  ordered := List.pairwise_map.mpr (h.ordered.imp fun hqr => by dsimp only; omega)

/-- The first `n` bytes stand before everything that lies after them. -/
theorem PlacedIn.take_cons {program : List Byte} {n : Nat} {placed : List (Nat × List Byte)} (hn : n ≤ program.length)
    (h : PlacedIn (program.drop n) placed) : PlacedIn program ((0, program.take n) :: shiftOffsets n placed) := by
  have hshift := h.shift hn
  have hlen : (program.take n).length = n := List.length_take_of_le hn
  refine ⟨List.forall_mem_cons.mpr ⟨?_, hshift.slice_eq⟩, List.forall_mem_cons.mpr ⟨?_, hshift.end_le⟩,
    List.pairwise_cons.mpr ⟨fun q hq => ?_, hshift.ordered⟩⟩
  · rw [List.drop_zero, hlen]
  · rwa [hlen, Nat.zero_add]
  · rw [hlen, Nat.zero_add]
    exact le_of_mem_shiftOffsets hq

/-- The framed slices have offsets in the stream, along the framer's scan. -/
theorem exists_placedIn_frame (program : List Byte) :
    ∃ placed, placed.map Prod.snd = frame program ∧ PlacedIn program placed := by
  induction program using frame_scan_induction with
  | nil => exact ⟨[], rfl, .nil _⟩
  | unknown first rest hnone ih =>
    obtain ⟨placed, hframe, hplaced⟩ := ih
    exact ⟨shiftOffsets 1 placed, by rw [shiftOffsets_map_snd, hframe, frame_cons_unknown rest hnone],
      hplaced.shift (Nat.le_add_left 1 rest.length)⟩
  | truncated first rest n hn hlen => exact ⟨[], (frame_cons_truncated hn hlen).symm, .nil _⟩
  | recorded first rest n hn hlen ih =>
    obtain ⟨placed, hframe, hplaced⟩ := ih
    exact ⟨_, by rw [List.map_cons, shiftOffsets_map_snd, hframe, frame_cons_recorded hn hlen],
      hplaced.take_cons hlen⟩

/-! ## RUN is its steps -/

theorem stepN_succ_of_step (k : Nat) {s t : State} (h : step s = .next t) : stepN (k + 1) s = stepN k t := by
  simp only [stepN, h]

theorem stepN_of_not_inLoop (k : Nat) {s : State} (h : s.inLoop = false) : stepN k s = .next s := by
  induction k with
  | zero => rfl
  | succ k ih => rw [stepN_succ_of_step k (step_of_not_inLoop h), ih]

/-- The loop's iterations are its steps: a step beyond the loop's end holds the state (log entry 4). -/
theorem runLoop_eq_stepN (k : Nat) (s : State) : runLoop k s = stepN k s := by
  induction k generalizing s with
  | zero => rfl
  | succ k ih =>
    cases h : s.inLoop with
    | false => rw [runLoop_of_not_inLoop _ h, stepN_of_not_inLoop _ h]
    | true =>
      obtain ⟨t, hstep, -⟩ := step_next s
      rw [runLoop_succ_of_step k h hstep, stepN_succ_of_step k hstep, ih]

theorem run_eq_stepN (s : State) : run s = stepN s.framed.length s.beginRun := runLoop_eq_stepN _ _

/-- A step of a running machine with pc below N answers, one pc further on. -/
theorem step_pc_succ {s : State} (hrunning : s.running = true) (hlt : s.pc < s.framed.length) :
    ∃ t, step s = .next t ∧ t.pc = s.pc + 1 ∧ SameButMemoryAndPc s t := by
  obtain ⟨u, hstep, ⟨-, -, -, hpc, -⟩, -⟩ := step_of_inLoop (State.inLoop_iff.mpr ⟨hrunning, hlt⟩)
  exact ⟨u.advance, hstep, by rw [State.advance_pc, hpc], step_sameButMemoryAndPc hstep⟩

/-- `k` steps of a running machine with `k` framed instructions left advance pc by `k` (40_engine.md R99). -/
theorem stepN_pc (k : Nat) (s : State) (hrunning : s.running = true) (hle : s.pc + k ≤ s.framed.length) :
    ∃ u, stepN k s = .next u ∧ u.pc = s.pc + k ∧ SameButMemoryAndPc s u := by
  induction k generalizing s with
  | zero => exact ⟨s, rfl, rfl, ⟨rfl, rfl, rfl, rfl⟩⟩
  | succ k ih =>
    obtain ⟨t, hstep, hpc, hsame⟩ := step_pc_succ hrunning (by omega)
    obtain ⟨u, hu, hupc, hsame'⟩ := ih t (hsame.running.trans hrunning) (by rw [hpc, hsame.framed]; omega)
    exact ⟨u, by rw [stepN_succ_of_step k hstep, hu], by omega, hsame.trans hsame'⟩

/-- The `k`-th state of a run, for `k` up to N: pc is `k`, and the loop goes on exactly while `k` is below N. -/
theorem stepN_beginRun {s : State} (hrunning : s.running = true) {k : Nat} (hk : k ≤ s.framed.length) :
    ∃ u, stepN k s.beginRun = .next u ∧ u.pc = k ∧ (u.inLoop = true ↔ k < s.framed.length) := by
  have hle : s.beginRun.pc + k ≤ s.beginRun.framed.length := by rwa [State.beginRun_pc, Nat.zero_add]
  obtain ⟨u, hu, hpc, hsame⟩ := stepN_pc k s.beginRun hrunning hle
  rw [State.beginRun_pc, Nat.zero_add] at hpc
  have hrun : u.running = true := hsame.running.trans hrunning
  refine ⟨u, hu, hpc, ?_⟩
  rw [State.inLoop_iff, hpc, hsame.framed, State.beginRun_framed]
  exact and_iff_right hrun

theorem run_of_framed_nil {s : State} (h : s.framed = []) : run s = .next s.beginRun := by
  rw [run_eq_stepN, h]
  rfl

/-! ## A run depends on memory and F alone -/

/-- `s` and `t` agree in everything a step reads: MEM_SIZE, memory, F, pc and the run flag. -/
structure SameButProgram (s t : State) : Prop extends SameMemory s t where
  framed : t.framed = s.framed
  pc : t.pc = s.pc
  running : t.running = s.running

theorem SameButProgram.inLoop {s t : State} (h : SameButProgram s t) : t.inLoop = s.inLoop := by
  rw [State.inLoop, State.inLoop, h.framed, h.pc, h.running]

theorem SameButProgram.fetch {s t : State} (h : SameButProgram s t) : t.fetch = s.fetch := by
  rw [State.fetch, State.fetch, h.inLoop, h.framed, h.pc]

theorem SameButProgram.advance {s t : State} (h : SameButProgram s t) : SameButProgram s.advance t.advance :=
  ⟨⟨h.memSize, h.mem⟩, h.framed, congrArg (· + 1) h.pc, h.running⟩

theorem exec_sameButProgram (i : Instr) {s t : State} (h : SameButProgram s t) :
    ∃ s' t', exec i s = .next s' ∧ exec i t = .next t' ∧ SameButProgram s' t' := by
  obtain ⟨s', t', hs, ht, hmem⟩ := exec_sameMemory i h.toSameMemory
  obtain ⟨-, -, hsframed, hspc, hsrunning⟩ := exec_sameButMemory hs
  obtain ⟨-, -, htframed, htpc, htrunning⟩ := exec_sameButMemory ht
  exact ⟨s', t', hs, ht, hmem, by rw [htframed, hsframed, h.framed], by rw [htpc, hspc, h.pc],
    by rw [htrunning, hsrunning, h.running]⟩

theorem step_sameButProgram {s t : State} (h : SameButProgram s t) :
    ∃ s' t', step s = .next s' ∧ step t = .next t' ∧ SameButProgram s' t' := by
  rcases step_cases s with ⟨hout, hstep⟩ | ⟨slice, hin, hslice, hdec⟩
  · exact ⟨s, t, hstep, step_of_not_inLoop (h.inLoop.trans hout), h⟩
  · have hfetch : t.fetch = some slice := h.fetch.trans ((State.fetch_of_inLoop hin).trans hslice)
    rcases hdec with ⟨i, hok, hstep⟩ | ⟨c, herror, hstep⟩
    · obtain ⟨s', t', hs, ht, hsame⟩ := exec_sameButProgram i h
      exact ⟨s'.advance, t'.advance, by rw [hstep, hs, thenAdvance_next],
        by rw [step_of_decode_ok hfetch hok, ht, thenAdvance_next], hsame.advance⟩
    · exact ⟨s.advance, t.advance, hstep, step_of_decode_error hfetch herror, h.advance⟩

theorem stepN_sameButProgram (k : Nat) {s t : State} (h : SameButProgram s t) :
    ∃ s' t', stepN k s = .next s' ∧ stepN k t = .next t' ∧ SameButProgram s' t' := by
  induction k generalizing s t with
  | zero => exact ⟨s, t, rfl, rfl, h⟩
  | succ k ih =>
    obtain ⟨s', t', hs, ht, hsame⟩ := step_sameButProgram h
    rw [stepN_succ_of_step k hs, stepN_succ_of_step k ht]
    exact ih hsame

/-- RUN's last memory is a function of the first memory and F (40_engine.md R99). -/
theorem run_mem_eq {s s' t t' : State} (h : SameButProgram s.beginRun s'.beginRun) (ht : run s = .next t)
    (ht' : run s' = .next t') : t'.mem = t.mem := by
  have hframed : s'.framed = s.framed := h.framed
  rw [run_eq_stepN] at ht ht'
  rw [hframed] at ht'
  obtain ⟨u, u', hu, hu', hsame⟩ := stepN_sameButProgram s.framed.length h
  cases hu.symm.trans ht
  cases hu'.symm.trans ht'
  exact hsame.mem

/-! ## The statements on the engine -/

/-- Settles O38: RUN is N steps (`run_eq_stepN`), pc counts them, and states that differ in P alone stay so. -/
theorem runMakesExactlyOneStepPerFramedInstruction : Obligations.RunMakesExactlyOneStepPerFramedInstruction := by
  refine ⟨fun s hrunning => ?_, fun s s' t t' hs hs' hsize hmem hframed ht ht' => ?_⟩
  · obtain ⟨t, ht, hpc, hloop⟩ := stepN_beginRun hrunning le_rfl
    have hrun : run s = .next t := (run_eq_stepN s).trans ht
    refine ⟨t, hrun, ht, hpc, ?_, fun k hk => ?_, fun hnil => ?_⟩
    · exact Bool.eq_false_of_not_eq_true fun h => Nat.lt_irrefl _ (hloop.mp h)
    · obtain ⟨u, hu, hupc, huloop⟩ := stepN_beginRun hrunning hk.le
      exact ⟨u, hu, hupc, huloop.mpr hk⟩
    · cases hrun.symm.trans (run_of_framed_nil hnil)
      exact ⟨State.beginRun_mem s, State.beginRun_pc s⟩
  · exact (run_mem_eq ⟨⟨hsize.symm, hmem.symm⟩, hframed.symm, rfl, hs'.trans hs.symm⟩ ht ht').symm

/-- Settles O9, by what `decode` can answer at the start of the stream. -/
theorem framerAbsorbsDecodeConditions : Obligations.FramerAbsorbsDecodeConditions :=
  fun _ _ => ⟨frame_of_decode_unknownOpcode, frame_of_decode_truncatedInstruction, fun _ => frame_of_decode_ok⟩

/-- Settles O10, the induction over the scan of `exists_decode_of_mem_frame`. -/
theorem framedSlicesDecode : Obligations.FramedSlicesDecode := fun _ _ => exists_decode_of_mem_frame

/-- Settles O11: the offsets are those of `exists_placedIn_frame`, read by index. -/
theorem framedSlicesAreDisjointAndInOrder : Obligations.FramedSlicesAreDisjointAndInOrder := by
  intro program
  obtain ⟨placed, hframe, hplaced⟩ := exists_placedIn_frame program
  rw [← hframe]
  refine ⟨placed.map Prod.fst, by rw [List.length_map, List.length_map], fun k slice off hslice hoff => ?_⟩
  rw [List.getElem?_map, Option.map_eq_some_iff] at hslice
  obtain ⟨p, hp, rfl⟩ := hslice
  rw [List.getElem?_map, hp] at hoff
  cases hoff
  have hmem := List.mem_of_getElem? hp
  refine ⟨hplaced.slice_eq p hmem, hplaced.end_le p hmem, fun k' off' hk hoff' => ?_⟩
  rw [List.getElem?_map, Option.map_eq_some_iff] at hoff'
  obtain ⟨q, hq, rfl⟩ := hoff'
  exact hplaced.end_le_of_lt hp hq hk

/-- Settles O8: one law of the framer per clause. -/
theorem framerScansByTheLengthTable : Obligations.FramerScansByTheLengthTable :=
  ⟨frame_nil, fun _ rest => ⟨frame_cons_unknown rest, fun _ hn => ⟨frame_cons_truncated hn, frame_cons_recorded hn⟩⟩⟩

/-- Settles O13: an encoding is recorded, the garbage byte skipped, and the second encoding recorded. -/
theorem unrecognisedByteBetweenInstructionsIsSkipped : Obligations.UnrecognisedByteBetweenInstructionsIsSkipped :=
  fun i j garbage h => by rw [frame_encode_append, frame_cons_unknown _ h, frame_encode]

/-- Settles O27, from the equations of a step in the loop and the frame of an instruction. -/
theorem stepRunsTheDecodedInstruction : Obligations.StepRunsTheDecodedInstruction := by
  intro s slice hrunning hslice
  have hfetch := fetch_eq hrunning hslice
  refine ⟨fun i hdec => ?_, fun c hdec => step_of_decode_error hfetch hdec⟩
  obtain ⟨t, hexec, -⟩ := exec_next i s
  exact ⟨t, hexec, (step_of_decode_ok hfetch hdec).trans (congrArg thenAdvance hexec), fun _ => exec_cell_of_ne hexec⟩

end Sys2Proof.Machine
end

section
/-! SUPPORT. Data movement (41_data_movement.md): what LDC does, the layout of its encoding, and where the value of a
cell can come from. -/

namespace Sys2Proof

/-- The operands of a well-formed LDC stand in its word unreduced (30_encoding.md R52, R57). -/
theorem encode_ldc {b c : Nat} (hb : b < 2 ^ 22) (hc : c < 2 ^ 16) :
    encode (.ldc b c) = bytesOfWord 6 (13 + b * 2 ^ 5 + c * 2 ^ 27) := by
  rw [encode, word_ldc, Nat.mod_eq_of_lt hb, Nat.mod_eq_of_lt hc]
  rfl

end Sys2Proof

namespace Sys2Proof.Machine

/-! ## What LDC does -/

theorem exec_ldc_of_lt {b : Nat} (c : Nat) {s : State} (h : b < s.memSize) :
    exec (.ldc b c) s = .next (s.setMem (s.mem.write b c)) := by
  rw [exec_ldc, if_pos h]

theorem exec_ldc_of_le {b : Nat} (c : Nat) {s : State} (h : s.memSize ≤ b) : exec (.ldc b c) s = .next s := by
  rw [exec_ldc, if_neg (Nat.not_lt.mpr h)]

/-! ## Where a value comes from -/

theorem largerOf_eq_or (p q : Nat) : largerOf p q = p ∨ largerOf p q = q := ite_eq_or_eq _ p q

/-- Where an outcome is one write under a bounds check `c`, a cell is as before, or it is the one written and holds the
new value. -/
theorem cell_of_eq_writeIf {r : Result} {s t : State} {c : Prop} [Decidable c] {dst v : Nat}
    (hr : r = .next (if c then s.setMem (s.mem.write dst v) else s)) (h : r = .next t) (a : Nat) :
    t.cell a = s.cell a ∨ a = dst ∧ t.cell a = v := by
  cases hr.symm.trans h
  by_cases hc : c
  · rw [if_pos hc, State.cell_setMem_write]
    by_cases ha : a = dst
    · exact .inr ⟨ha, if_pos ha⟩
    · exact .inl (if_neg ha)
  · rw [if_neg hc]
    exact .inl rfl

/-- Only LDC brings a new value into memory: LDM, STM and MAX write a value that some cell holds (41_data_movement.md
R110). -/
theorem exec_cell_origin {i : Instr} {s t : State} (a : Nat) (h : exec i s = .next t) :
    (∃ x, t.cell a = s.cell x) ∨ ∃ c, i = .ldc a c ∧ t.cell a = c := by
  cases i with
  | ldc b c =>
    rcases cell_of_eq_writeIf (exec_ldc b c s) h a with hold | ⟨rfl, hnew⟩
    · exact .inl ⟨a, hold⟩
    · exact .inr ⟨c, rfl, hnew⟩
  | ldm b c =>
    rcases cell_of_eq_writeIf (exec_ldm b c s) h a with hold | ⟨-, hnew⟩
    · exact .inl ⟨a, hold⟩
    · exact .inl ⟨s.cell c, hnew⟩
  | stm b c =>
    rcases cell_of_eq_writeIf (exec_stm b c s) h a with hold | ⟨-, hnew⟩
    · exact .inl ⟨a, hold⟩
    · exact .inl ⟨b, hnew⟩
  | max b c d =>
    rcases cell_of_eq_writeIf (exec_max b c d s) h a with hold | ⟨-, hnew⟩
    · exact .inl ⟨a, hold⟩
    · rcases largerOf_eq_or (s.cell b) (s.cell d) with hb | hd
      · exact .inl ⟨b, hnew.trans hb⟩
      · exact .inl ⟨d, hnew.trans hd⟩

/-! ## The statements on data movement -/

/-- Settles O19: the two cases of LDC's bounds check, the frame of an instruction, and `exec_cell_origin`. -/
theorem ldcStoresItsConstant : Obligations.LdcStoresItsConstant := by
  refine ⟨fun b c s => ?_, fun _ _ => encode_ldc, by decide, fun _ _ _ a h => exec_cell_origin a h⟩
  obtain ⟨t, ht, hsame⟩ := exec_next (.ldc b c) s
  refine ⟨t, ht, fun hb => ?_, fun hb => ?_, fun a ha => exec_cell_of_ne ht ha, hsame⟩
  · cases (exec_ldc_of_lt c hb).symm.trans ht
    rw [State.cell_setMem_write, if_pos rfl]
  · exact Host.Outcome.next.inj (ht.symm.trans (exec_ldc_of_le c hb))

end Sys2Proof.Machine
end

section
/-! SUPPORT. MAX (42_max.md): its effect and its cancellation, its order of sources, and the layout of its encoding. -/

namespace Sys2Proof

/-- The operands of a well-formed MAX stand in its word unreduced (30_encoding.md R55, R57). -/
theorem encode_max {b c d : Nat} (hb : b < 2 ^ 22) (hc : c < 2 ^ 22) (hd : d < 2 ^ 22) :
    encode (.max b c d) = bytesOfWord 9 (28 + b * 2 ^ 5 + c * 2 ^ 27 + d * 2 ^ 49) := by
  rw [encode, word_max, Nat.mod_eq_of_lt hb, Nat.mod_eq_of_lt hc, Nat.mod_eq_of_lt hd]
  rfl

end Sys2Proof

namespace Sys2Proof.Machine

/-! ## What MAX does -/

theorem exec_max_of_lt {b c d : Nat} {s : State} (hb : b < s.memSize) (hc : c < s.memSize) (hd : d < s.memSize) :
    exec (.max b c d) s = .next (s.setMem (s.mem.write c (largerOf (s.cell b) (s.cell d)))) := by
  rw [exec_max, if_pos ⟨hc, hb, hd⟩]

theorem exec_max_of_le {b c d : Nat} {s : State} (h : s.memSize ≤ b ∨ s.memSize ≤ c ∨ s.memSize ≤ d) :
    exec (.max b c d) s = .next s := by
  rw [exec_max, if_neg]
  rintro ⟨hc, hb, hd⟩
  rcases h with h | h | h
  · exact Nat.not_lt.mpr h hb
  · exact Nat.not_lt.mpr h hc
  · exact Nat.not_lt.mpr h hd

/-- The cell MAX writes holds the larger of the two values its sources had before the write. -/
theorem cell_of_exec_max {b c d : Nat} {s t : State} (hb : b < s.memSize) (hc : c < s.memSize) (hd : d < s.memSize)
    (h : exec (.max b c d) s = .next t) : t.cell c = largerOf (s.cell b) (s.cell d) := by
  cases (exec_max_of_lt hb hc hd).symm.trans h
  rw [State.cell_setMem_write, if_pos rfl]

theorem largerOf_comm (p q : Nat) : largerOf p q = largerOf q p := by
  rw [largerOf_eq_max, largerOf_eq_max]
  exact Nat.max_comm p q

/-- The order of MAX's sources has no effect, whether or not the addresses are in range (42_max.md R121). -/
theorem exec_max_comm (b c d : Nat) (s : State) : exec (.max b c d) s = exec (.max d c b) s := by
  simp only [exec_max, largerOf_comm (s.cell b), and_comm (a := b < s.memSize)]

/-! ## The statements on MAX -/

/-- Settles O22: the two cases of MAX's bounds check, the frame of an instruction, and the layout of the encoding. -/
theorem maxStoresTheLargerCell : Obligations.MaxStoresTheLargerCell := by
  refine ⟨fun b c d s => ?_, fun _ _ _ => encode_max, by decide, by decide⟩
  obtain ⟨t, ht, hsame⟩ := exec_next (.max b c d) s
  refine ⟨t, ht, fun hb hc hd => cell_of_exec_max hb hc hd ht, fun hout => ?_, fun a ha => exec_cell_of_ne ht ha, hsame⟩
  exact Host.Outcome.next.inj (ht.symm.trans (exec_max_of_le hout))

/-- Settles O23: the value written is `Nat.max` of the sources, and `exec_max_comm` gives the same next state. -/
theorem maxValueIsTheMathematicalMaximum : Obligations.MaxValueIsTheMathematicalMaximum := by
  intro b c d s t u hb hc hd ht hu
  have hsame : t = u := Host.Outcome.next.inj (ht.symm.trans ((exec_max_comm b c d s).trans hu))
  rw [cell_of_exec_max hb hc hd ht]
  refine ⟨?_, ?_, largerOf_eq_or _ _, hsame⟩
  · rw [largerOf_eq_max]
    exact Nat.le_max_left _ _
  · rw [largerOf_eq_max]
    exact Nat.le_max_right _ _

end Sys2Proof.Machine
end

section
/-! SUPPORT. The exceptions (60_exceptions.md): no instruction and no step raises one, the first assembly error aborts
the assembly, and LOAD absorbs what `decode` signals. -/

namespace Sys2Proof.Machine

/-! ## The five conditions -/

theorem AsmError.condition_fatal (e : AsmError) : e.condition.fatal = true := by cases e <;> rfl

theorem conditionOfDecode_fatal (c : DecodeCondition) : (conditionOfDecode c).fatal = false := by cases c <;> rfl

/-- Every condition is one the assembler or `decode` raises (60_exceptions.md R130). -/
theorem condition_raised (c : Condition) : (∃ e : AsmError, e.condition = c) ∨ ∃ d, conditionOfDecode d = c := by
  cases c with
  | malformedOperand => exact .inl ⟨.malformedOperand 1 [], rfl⟩
  | unknownMnemonic => exact .inl ⟨.unknownMnemonic 1 [], rfl⟩
  | arityMismatch => exact .inl ⟨.arityMismatch 1, rfl⟩
  | truncatedInstruction => exact .inr ⟨.truncatedInstruction, rfl⟩
  | unknownOpcode => exact .inr ⟨.unknownOpcode, rfl⟩

/-! ## The first error aborts the assembly -/

theorem parseLines_cons_of_error {line : Nat} {text : List Char} (rest : List (List Char)) {e : AsmError}
    (h : parseLine line text = .error e) : parseLines line (text :: rest) = .error e := by
  rw [parseLines, h]

theorem parseLines_cons_of_rest_error {line : Nat} {text : List Char} {parsed : Option SourceInstr}
    {rest : List (List Char)} {e : AsmError} (h : parseLine line text = .ok parsed)
    (hrest : parseLines (line + 1) rest = .error e) : parseLines line (text :: rest) = .error e := by
  rw [parseLines, h, hrest]

/-- The first line that fails aborts the parse, whatever follows it (30_encoding.md R70, R71). -/
theorem parseLines_of_first_error {line : Nat} {before : List (List Char)} {failing : List Char}
    (after : List (List Char)) {parsed : List SourceInstr} {e : AsmError}
    (hbefore : parseLines line before = .ok parsed)
    (hfailing : parseLine (line + before.length) failing = .error e) :
    parseLines line (before ++ failing :: after) = .error e := by
  induction before generalizing line parsed with
  | nil => exact parseLines_cons_of_error after hfailing
  | cons text rest ih =>
    obtain ⟨_, _, htext, hrest, -⟩ := parseLines_cons_eq_ok.mp hbefore
    have hline : line + (text :: rest).length = line + 1 + rest.length := by rw [List.length_cons]; omega
    exact parseLines_cons_of_rest_error htext (ih hrest (hline ▸ hfailing))

theorem ofOperands_eq_none {op : Opcode} {vs : List Nat} (h : vs.length ≠ op.arity) :
    Instr.ofOperands op vs = none := by
  rwa [← Option.not_isSome_iff_eq_none, ofOperands_isSome]

/-- The first operand count that is not its opcode's arity aborts the lowering (30_encoding.md R72). -/
theorem lowerAll_of_first_mismatch {before : List SourceInstr} {src : SourceInstr} (after : List SourceInstr)
    {lowered : List Instr} (hbefore : lowerAll before = .ok lowered) (hsrc : src.operands.length ≠ src.opcode.arity) :
    lowerAll (before ++ src :: after) = .error (.arityMismatch src.line) := by
  induction before generalizing lowered with
  | nil => rw [List.nil_append, lowerAll, ofOperands_eq_none hsrc]
  | cons first rest ih =>
    obtain ⟨i, more, hi, hrest, -⟩ := List.forall₂_cons_left_iff.mp (lowerAll_eq_ok.mp hbefore)
    rw [List.cons_append, lowerAll, ofOperands_eq_some.mpr hi, ih (lowerAll_eq_ok.mpr hrest)]

/-! ## The statements on exceptions -/

/-- Settles O26: an instruction and a step each answer a next state, framed slices decode, and the step skips one that
would not. -/
theorem noInstructionRaisesAnException : Obligations.NoInstructionRaisesAnException :=
  ⟨fun i s => (exec_next i s).imp fun _ => And.left,
    fun _ _ hslice => (exists_decode_of_mem_frame hslice).imp fun _ => And.left,
    fun _ _ _ hrunning hslice => step_of_decode_error (fetch_eq hrunning hslice),
    fun s => (step_next s).imp fun _ => And.left⟩

/-- Settles O51: the assembler answers its first error, and LOAD's F after framed instructions is what the framer makes
of bytes that `decode` answers a condition on. -/
theorem onlyAssemblyConditionsAreFatal : Obligations.OnlyAssemblyConditionsAreFatal := by
  refine ⟨fun text e h => ⟨assembleChars_eq_error.mpr h, e.condition_fatal⟩, ?_, ?_, fun s bytes => ?_,
    condition_raised⟩
  · intro text line before after parsed e hlines hbefore hline
    have hparse : parseSource text = .error e := by
      rw [parseSource, hlines]
      exact parseLines_of_first_error after hbefore (by rwa [Nat.add_comm])
    exact assembleChars_eq_error.mpr (.inl hparse)
  · intro text before after src lowered hparse hbefore hsrc
    exact assembleChars_eq_error.mpr (.inr ⟨_, hparse, lowerAll_of_first_mismatch after hbefore hsrc⟩)
  · refine ⟨s.load bytes, rfl, rfl, fun is tail c hbytes hdec => ⟨conditionOfDecode_fatal c, ?_⟩⟩
    rw [State.load_framed, hbytes, frame_encodeAll_append]
    cases c with
    | truncatedInstruction => rw [frame_of_decode_truncatedInstruction hdec]
    | unknownOpcode => rw [frame_of_decode_unknownOpcode hdec]

end Sys2Proof.Machine
end

section
/-! SUPPORT. Reset and hazards (70_reset_and_hazards.md): a session that begins with CONSTRUCT does not depend on the
state it finds, so repeating it repeats its answer. -/

namespace Sys2Proof.Machine

/-- A session goes on from the state its first part answers. -/
theorem session_append_of_session {ts : List Transaction} {s t : State} (us : List Transaction)
    (h : session ts s = .next t) : session (ts ++ us) s = session us t := by
  induction ts generalizing s with
  | nil =>
    cases h
    rfl
  | cons tr rest ih =>
    cases htr : transact tr s with
    | next v =>
      rw [session_cons_of_transact rest htr] at h
      rw [List.cons_append, session_cons_of_transact _ htr]
      exact ih h
    | fault f => simp [session, htr] at h
    | refused r => simp [session, htr] at h

/-- CONSTRUCT destroys all state, so what the machine held before has no effect (70_reset_and_hazards.md R157). -/
theorem session_construct (size : Option Nat) (rest : List Transaction) (s s' : State) :
    session (.construct size :: rest) s = session (.construct size :: rest) s' := rfl

/-- A session that begins with CONSTRUCT answers the same state when the host repeats it. -/
theorem session_construct_twice {size : Option Nat} {rest : List Transaction} {s t : State}
    (h : session (.construct size :: rest) s = .next t) :
    session (.construct size :: rest ++ .construct size :: rest) s = .next t :=
  calc session (.construct size :: rest ++ .construct size :: rest) s
    _ = session (.construct size :: rest) t := session_append_of_session _ h
    _ = session (.construct size :: rest) s := session_construct size rest t s
    _ = .next t := h

/-- Every session that begins with CONSTRUCT answers, for the constructed machine is legal. -/
theorem session_construct_next (size : Option Nat) (rest : List Transaction) (s : State) :
    ∃ t, session (.construct size :: rest) s = .next t := by
  obtain ⟨t, ht, -⟩ := session_keeps (fun tr _ => transact_legal tr) rest _
    ⟨construct_memoryLegal (size.getD Config.defaultMemSize), construct_programLegal _⟩
  exact ⟨t, ht⟩

/-- Settles O40: the three transactions answer, and the second CONSTRUCT discards the state they answered. -/
theorem runFromFreshMemoryIsRepeatable : Obligations.RunFromFreshMemoryIsRepeatable := by
  intro n bytes s
  obtain ⟨t, ht⟩ := session_construct_next (some n) [.load bytes, .run] s
  exact ⟨t, ht, session_construct_twice ht⟩

end Sys2Proof.Machine
end

section
/-! SUPPORT. The remaining statements: operands and pad bits that `encode` reduces, the conditions the framer absorbs,
canonical memories and DUMP, LDM, STM and the bounds rule, the lazily framing machine, comments and the order of
assembly errors. -/

namespace Sys2Proof

/-! ## Oversized operands -/

/-- An operand already reduced to its field is reduced no further. -/
@[simp] theorem Field.place_wrap (f : Field) (v : Nat) : f.place (f.wrap v) = f.place v := by
  rw [Field.place, Field.place, Field.wrap, Field.wrap, Nat.mod_mod]

theorem word_wrapped (i : Instr) : i.wrapped.word = i.word := by
  cases i <;> simp only [Instr.wrapped, Instr.word, Field.place_wrap]

theorem encode_wrapped (i : Instr) : encode i.wrapped = encode i := by
  rw [encode, wrapped_opcode, word_wrapped, encode]

/-- A wrapped instruction is one read from a word, and those are well-formed. -/
theorem wrapped_wf (i : Instr) : i.wrapped.wf = true := by
  rw [← instrOfWord_word]
  exact Machine.instrOfWord_wf _ _

/-! ## Pad bits -/

/-- Composing the word again from the fields read out of `w` keeps the tag and the fields and clears what stands above
them (30_encoding.md R61). -/
theorem word_instrOfWord {op : Opcode} {w : Nat} (h : op.tag = w % 2 ^ 5) :
    (instrOfWord op w).word = w % 2 ^ (8 * op.length - op.padBits) := by
  cases op with
  | ldc =>
    simp only [instrOfWord, word_ldc, Field.extract_eq, fieldB, fieldC16, Opcode.length, Opcode.padBits,
      Opcode.tag] at h ⊢
    omega
  | ldm =>
    simp only [instrOfWord, word_ldm, Field.extract_eq, fieldB, fieldC22, Opcode.length, Opcode.padBits,
      Opcode.tag] at h ⊢
    omega
  | stm =>
    simp only [instrOfWord, word_stm, Field.extract_eq, fieldB, fieldC22, Opcode.length, Opcode.padBits,
      Opcode.tag] at h ⊢
    omega
  | max =>
    simp only [instrOfWord, word_max, Field.extract_eq, fieldB, fieldC22, fieldD, Opcode.length, Opcode.padBits,
      Opcode.tag] at h ⊢
    omega

/-- The word of an instruction decoded from exactly its bytes is theirs with the pad bits cleared. -/
theorem word_of_decode_ok {s : List Byte} {i : Instr} (h : decode s = .ok i) (hlen : s.length = i.opcode.length) :
    i.word = littleEndian s % 2 ^ (8 * s.length - i.opcode.padBits) := by
  obtain ⟨op, -, htag, rfl⟩ := decode_eq_ok_word h
  rw [instrOfWord_opcode] at hlen ⊢
  rw [List.take_of_length_le hlen.le] at htag ⊢
  rw [word_instrOfWord htag, hlen]

/-! ## The order of `decode`'s tests -/

theorem decode_cons_of_unknown {first : Byte} (rest : List Byte) (h : lengthOfTag (tagOf first) = none) :
    decode (first :: rest) = .error .unknownOpcode := by
  have hop : opcodeOfByte first = none := Option.map_eq_none_iff.mp h
  simp only [decode, hop]

theorem decode_cons_of_lt_length {first : Byte} {rest : List Byte} {n : Nat} (h : lengthOfTag (tagOf first) = some n)
    (hlen : (first :: rest).length < n) : decode (first :: rest) = .error .truncatedInstruction := by
  obtain ⟨op, hop, rfl⟩ := Option.map_eq_some_iff.mp h
  have hop' : opcodeOfByte first = some op := hop
  simp only [decode, hop', if_pos hlen]

theorem tag_of_decode_cons {first : Byte} {rest : List Byte} {i : Instr} (h : decode (first :: rest) = .ok i) :
    i.opcode.tag = tagOf first := by
  obtain ⟨op, _, _, hcons, hop, -, rfl⟩ := decode_eq_ok h
  cases hcons
  rw [instrOfWord_opcode, tag_of_opcodeOfTag hop]

/-! ## The layout of LDM and STM -/

/-- The operands of a well-formed LDM stand in its word unreduced (30_encoding.md R53, R57). -/
theorem encode_ldm {b c : Nat} (hb : b < 2 ^ 22) (hc : c < 2 ^ 22) :
    encode (.ldm b c) = bytesOfWord 7 (31 + b * 2 ^ 5 + c * 2 ^ 27) := by
  rw [encode, word_ldm, Nat.mod_eq_of_lt hb, Nat.mod_eq_of_lt hc]
  rfl

/-- The operands of a well-formed STM stand in its word unreduced (30_encoding.md R54, R57). -/
theorem encode_stm {b c : Nat} (hb : b < 2 ^ 22) (hc : c < 2 ^ 22) :
    encode (.stm b c) = bytesOfWord 7 (7 + b * 2 ^ 5 + c * 2 ^ 27) := by
  rw [encode, word_stm, Nat.mod_eq_of_lt hb, Nat.mod_eq_of_lt hc]
  rfl

/-! ## The statements on the Codec -/

/-- Settles O2: wrapping changes no place in the word, and the word reads back as the wrapped instruction. -/
theorem oversizedOperandsWrapInTheirOwnField : Obligations.OversizedOperandsWrapInTheirOwnField :=
  fun i => ⟨(encode_wrapped i).symm, wrapped_wf i, by rw [← encode_wrapped, decode_encode (wrapped_wf i)]⟩

/-- Settles O3: the words on both sides agree by `word_of_decode_ok`, and bytes and words determine each other. -/
theorem encodeOfDecodeClearsPadBits : Obligations.EncodeOfDecodeClearsPadBits := by
  intro s i h hlen
  have hword := word_of_decode_ok h hlen
  refine ⟨by rw [encode, ← hword, hlen], fun hs => ?_, fun hlt => ?_⟩
  · have hbytes : littleEndian s = i.word := by rw [← littleEndian_encode, hs]
    rw [hbytes, hword]
    exact Nat.mod_lt _ (Nat.two_pow_pos _)
  · rw [encode, hword, Nat.mod_eq_of_lt hlt, ← hlen, bytesOfWord_littleEndian]

/-- Settles O6: one case of `decode` per clause. -/
theorem decodeTestsTheTagBeforeTheLength : Obligations.DecodeTestsTheTagBeforeTheLength := by
  refine ⟨rfl, fun first rest => ⟨decode_cons_of_unknown rest, fun n hn =>
    ⟨decode_cons_of_lt_length hn, fun hle => ?_⟩⟩⟩
  obtain ⟨i, hdec, hlen⟩ := exists_decode_of_lengthOfTag hn hle
  exact ⟨i, hdec, hlen, tag_of_decode_cons hdec⟩

end Sys2Proof

namespace Sys2Proof.Machine

/-! ## The conditions absorbed while framing -/

/-- Passing over bytes of a recorded instruction is dropping them, and the offset counts them. -/
theorem frameConditionsFrom_eq_drop (skip off : Nat) (s : List Byte) :
    frameConditionsFrom skip off s = frameConditionsFrom 0 (off + skip) (s.drop skip) := by
  induction s generalizing skip off with
  | nil => cases skip <;> simp [frameConditionsFrom]
  | cons first rest ih =>
    cases skip with
    | zero => rfl
    | succ k => rw [frameConditionsFrom, ih, List.drop_succ_cons, Nat.add_right_comm, Nat.add_assoc]

theorem frameConditionsFrom_cons_unknown {first : Byte} (off : Nat) (rest : List Byte)
    (h : lengthOfTag (tagOf first) = none) :
    frameConditionsFrom 0 off (first :: rest) = (.unknownOpcode, off) :: frameConditionsFrom 0 (off + 1) rest := by
  rw [frameConditionsFrom]
  simp only [h]

theorem frameConditionsFrom_cons_truncated {first : Byte} (off : Nat) {rest : List Byte} {n : Nat}
    (h : lengthOfTag (tagOf first) = some n) (hlen : (first :: rest).length < n) :
    frameConditionsFrom 0 off (first :: rest) = [(.truncatedInstruction, off)] := by
  rw [frameConditionsFrom]
  simp only [h, if_pos hlen]

theorem frameConditionsFrom_cons_recorded {first : Byte} (off : Nat) {rest : List Byte} {n : Nat}
    (h : lengthOfTag (tagOf first) = some n) (hlen : n ≤ (first :: rest).length) :
    frameConditionsFrom 0 off (first :: rest) = frameConditionsFrom 0 (off + n) ((first :: rest).drop n) := by
  obtain ⟨k, rfl⟩ := Nat.exists_eq_succ_of_ne_zero (lengthOfTag_pos h).ne'
  rw [frameConditionsFrom]
  simp only [h, if_neg (Nat.not_lt.mpr hlen)]
  rw [frameConditionsFrom_eq_drop, List.drop_succ_cons, Nat.add_assoc, Nat.add_comm 1]
  rfl

/-- Each of `conds` is what `decode` signals at its offset, which lies in the stream and not before `off`; offsets
increase and nothing follows a TruncatedInstruction (60_exceptions.md R131, R132). -/
structure AbsorbedFrom (program : List Byte) (off : Nat) (conds : List (DecodeCondition × Nat)) : Prop where
  signalled : ∀ p ∈ conds, off ≤ p.2 ∧ p.2 < program.length ∧ decode (program.drop p.2) = .error p.1
  ordered : conds.Pairwise fun p q => p.2 < q.2 ∧ p.1 ≠ .truncatedInstruction

theorem AbsorbedFrom.nil (program : List Byte) (off : Nat) : AbsorbedFrom program off [] :=
  ⟨fun _ hp => absurd hp List.not_mem_nil, .nil⟩

theorem AbsorbedFrom.mono {program : List Byte} {off off' : Nat} {conds : List (DecodeCondition × Nat)}
    (h : AbsorbedFrom program off' conds) (hle : off ≤ off') : AbsorbedFrom program off conds :=
  ⟨fun p hp => ⟨hle.trans (h.signalled p hp).1, (h.signalled p hp).2⟩, h.ordered⟩

/-- A condition signalled at `off` stands before those absorbed after it, of which a truncated one has none. -/
theorem AbsorbedFrom.cons {program : List Byte} {off : Nat} {c : DecodeCondition}
    {conds : List (DecodeCondition × Nat)} (h : AbsorbedFrom program (off + 1) conds) (hoff : off < program.length)
    (hdec : decode (program.drop off) = .error c) (hlast : c = .truncatedInstruction → conds = []) :
    AbsorbedFrom program off ((c, off) :: conds) where
  signalled := List.forall_mem_cons.mpr ⟨⟨le_rfl, hoff, hdec⟩, (h.mono (Nat.le_succ off)).signalled⟩
  ordered := List.pairwise_cons.mpr ⟨fun q hq =>
    ⟨(h.signalled q hq).1, fun hc => List.ne_nil_of_mem hq (hlast hc)⟩, h.ordered⟩

theorem lt_length_of_drop_eq_cons {program rest : List Byte} {first : Byte} {off : Nat}
    (h : program.drop off = first :: rest) : off < program.length :=
  Nat.not_le.mp fun hle => List.cons_ne_nil first rest (h.symm.trans (List.drop_eq_nil_of_le hle))

/-- What the scan absorbs from an offset on, along the framer's scan of the bytes there. -/
theorem absorbedFrom_frameConditionsFrom {program s : List Byte} {off : Nat} (hs : program.drop off = s) :
    AbsorbedFrom program off (frameConditionsFrom 0 off s) := by
  induction s using frame_scan_induction generalizing off with
  | nil => exact .nil program off
  | unknown first rest hnone ih =>
    rw [frameConditionsFrom_cons_unknown off rest hnone]
    refine (ih ?_).cons (lt_length_of_drop_eq_cons hs) (hs ▸ decode_cons_of_unknown rest hnone) nofun
    rw [← List.tail_drop, hs, List.tail_cons]
  | truncated first rest n hn hlen =>
    rw [frameConditionsFrom_cons_truncated off hn hlen]
    exact (AbsorbedFrom.nil program (off + 1)).cons (lt_length_of_drop_eq_cons hs)
      (hs ▸ decode_cons_of_lt_length hn hlen) fun _ => rfl
  | recorded first rest n hn hlen ih =>
    rw [frameConditionsFrom_cons_recorded off hn hlen]
    refine (ih ?_).mono (Nat.le_add_right off n)
    rw [← List.drop_drop, hs]

theorem absorbedFrom_frameConditions (program : List Byte) : AbsorbedFrom program 0 (frameConditions program) :=
  absorbedFrom_frameConditionsFrom List.drop_zero

/-- A TruncatedInstruction is the last condition. -/
theorem AbsorbedFrom.eq_length_of_truncated {program : List Byte} {off k : Nat} {conds : List (DecodeCondition × Nat)}
    (h : AbsorbedFrom program off conds) {p : DecodeCondition × Nat} (hk : conds[k]? = some p)
    (hp : p.1 = .truncatedInstruction) : k + 1 = conds.length := by
  obtain ⟨hlt, rfl⟩ := List.getElem?_eq_some_iff.mp hk
  refine (Nat.eq_or_lt_of_le hlt).resolve_right fun hnext => ?_
  exact (List.pairwise_iff_getElem.mp h.ordered k (k + 1) hlt hnext k.lt_succ_self).2 hp

/-! ## A placed word -/

/-- Where F is the framing of bytes that decode, the first step of a run is of the decoded instruction. -/
theorem step_of_decode_program {s : State} {bytes : List Byte} {i : Instr} (hrunning : s.running = true)
    (hpc : s.pc = 0) (hframed : s.framed = frame bytes) (hdec : decode bytes = .ok i) :
    step s = thenAdvance (exec i s) := by
  have hslice : s.framed[s.pc]? = some (bytes.take i.opcode.length) := by
    rw [hframed, hpc, frame_of_decode_ok hdec, List.getElem?_cons_zero]
  exact step_of_decode_ok (fetch_eq hrunning hslice) (decode_take hdec)

theorem decode_of_decodeTableWord {nbits w : Nat} {i : Instr} (h : decodeTableWord nbits w = some i) :
    decode (tableWordBytes nbits w) = .ok i := by
  rw [decodeTableWord] at h
  split at h
  · next hdec =>
    cases h
    exact hdec
  · cases h

/-! ## The statements on the framer -/

/-- Settles O14, from the list of what the scan absorbs from offset 0. -/
theorem loadConditionsAriseInStreamOrder : Obligations.LoadConditionsAriseInStreamOrder := by
  intro program
  have h := absorbedFrom_frameConditions program
  refine ⟨List.pairwise_map.mpr (h.ordered.imp And.left), fun k off c hk => ?_⟩
  obtain ⟨-, hoff, hdec⟩ := h.signalled _ (List.mem_of_getElem? hk)
  exact ⟨hdec, hoff, h.eq_length_of_truncated hk⟩

/-- Settles O31: the placed bytes frame to the slice of the instruction, and pc stands at it. -/
theorem placedWordIsTheNextInstruction : Obligations.PlacedWordIsTheNextInstruction :=
  fun _ _ _ _ h => step_of_decode_program rfl rfl rfl (decode_of_decodeTableWord h)

/-! ## A canonical memory is its nonzero reads -/

theorem Memory.read_of_mem {m : Memory} {a v : Nat} (hrising : m.Pairwise fun x y => x.1 < y.1) (h : (a, v) ∈ m) :
    m.read a = v := by
  induction m with
  | nil => cases h
  | cons cell rest ih =>
    obtain ⟨b, w⟩ := cell
    obtain ⟨hhead, hrest⟩ := List.pairwise_cons.mp hrising
    rw [Memory.read_cons]
    rcases List.mem_cons.mp h with heq | h
    · cases heq
      exact if_pos rfl
    · rw [if_neg (hhead _ h).ne']
      exact ih hrest h

/-- In a canonical memory the listed cells are the nonzero ones. -/
theorem Memory.mem_iff_read {m : Memory} (hwf : m.wf) {a v : Nat} : (a, v) ∈ m ↔ m.read a = v ∧ v ≠ 0 := by
  obtain ⟨hrising, hne⟩ := hwf
  constructor
  · exact fun h => ⟨Memory.read_of_mem hrising h, hne _ h⟩
  · rintro ⟨rfl, hv⟩
    exact Memory.mem_of_read_ne_zero hv

/-- Lists of cells in rising address order that hold the same cells are equal. -/
theorem eq_of_rising_of_mem_iff {m m' : List (Nat × Nat)} (h : m.Pairwise fun x y => x.1 < y.1)
    (h' : m'.Pairwise fun x y => x.1 < y.1) (hmem : ∀ a v, (a, v) ∈ m ↔ (a, v) ∈ m') : m = m' :=
  have : Std.Irrefl fun x y : Nat × Nat => x.1 < y.1 := ⟨fun x => Nat.lt_irrefl x.1⟩
  have : Std.Antisymm fun x y : Nat × Nat => x.1 < y.1 := ⟨fun _ _ hxy hyx => absurd hxy hyx.not_gt⟩
  h.eq_of_mem_iff h' fun _ => hmem _ _

/-! ## The memory interface -/

theorem State.withCell_of_le {s : State} {a : Nat} (h : s.memSize ≤ a) (k : Nat → Result) :
    s.withCell a k = .refused (.absentCell a) := by
  rw [State.withCell, State.memRead_of_not_lt (Nat.not_lt.mpr h)]

theorem State.storeCell_of_le {s : State} {a : Nat} (h : s.memSize ≤ a) (v : Nat) :
    s.storeCell a v = .refused (.absentCell a) :=
  if_neg (State.inRange_iff.not.mpr (Nat.not_lt.mpr h))

/-! ## DUMP -/

/-- The nonzero cells of `[start, min(stop, MEM_SIZE))` by address, in rising order: DUMP before its keys are put on. -/
def nonzeroCells (s : State) (start stop : Nat) : List (Nat × Nat) :=
  (List.range' start (min stop s.memSize - start)).filterMap fun a =>
    if s.cell a ≠ 0 then some (a, s.cell a) else none

theorem dump_eq_map_nonzeroCells (s : State) (start stop : Nat) :
    dump s start stop = (nonzeroCells s start stop).map fun cell => (dumpKey cell.1, cell.2) := by
  rw [dump, nonzeroCells, List.map_filterMap]
  refine List.filterMap_congr fun a _ => ?_
  by_cases hcell : s.cell a = 0 <;> simp [hcell]

theorem nonzeroCells_rising (s : State) (start stop : Nat) :
    (nonzeroCells s start stop).Pairwise fun x y => x.1 < y.1 := by
  refine List.Pairwise.filterMap _ (fun a a' hlt cell hcell cell' hcell' => ?_) (List.pairwise_lt_range' 1)
  obtain ⟨-, heq⟩ := Option.ite_none_right_eq_some.mp hcell
  obtain ⟨-, heq'⟩ := Option.ite_none_right_eq_some.mp hcell'
  cases heq
  cases heq'
  exact hlt

theorem mem_nonzeroCells {s : State} {start stop a v : Nat} :
    (a, v) ∈ nonzeroCells s start stop ↔ s.cell a = v ∧ v ≠ 0 ∧ start ≤ a ∧ a < min stop s.memSize := by
  rw [nonzeroCells, List.mem_filterMap]
  constructor
  · rintro ⟨b, hrange, hcell⟩
    obtain ⟨hne, heq⟩ := Option.ite_none_right_eq_some.mp hcell
    cases heq
    rw [List.mem_range'_1] at hrange
    exact ⟨rfl, hne, hrange.1, by omega⟩
  · rintro ⟨rfl, hne, hstart, hstop⟩
    exact ⟨a, List.mem_range'_1.mpr ⟨hstart, by omega⟩, if_pos hne⟩

theorem MemoryLegal.lt_of_cell_ne_zero {s : State} (h : MemoryLegal s) {a : Nat} (ha : s.cell a ≠ 0) : a < s.memSize :=
  h.exists_cells _ (Memory.mem_of_read_ne_zero ha)

/-- On legal memory they are the listed cells of the range: none is listed at or above MEM_SIZE. -/
theorem nonzeroCells_eq_filter {s : State} (h : MemoryLegal s) (start stop : Nat) :
    nonzeroCells s start stop = s.mem.filter fun cell => decide (start ≤ cell.1 ∧ cell.1 < stop) := by
  refine eq_of_rising_of_mem_iff (nonzeroCells_rising s start stop) (h.canonical.1.filter _) fun a v => ?_
  rw [mem_nonzeroCells, List.mem_filter, Memory.mem_iff_read h.canonical, decide_eq_true_eq, and_assoc]
  refine and_congr_right fun hcell => and_congr_right fun hne => and_congr_right fun _ => ?_
  exact lt_min_iff.trans (and_iff_left (h.lt_of_cell_ne_zero (hcell ▸ hne)))

/-- The numeral of a positive number does not begin with 0. -/
theorem eq_zero_of_head?_decimalDigits {fuel n : Nat} (h : n < fuel) (hhead : (decimalDigits fuel n).head? = some '0') :
    n = 0 := by
  induction fuel generalizing n with
  | zero => cases h
  | succ fuel ih =>
    rw [decimalDigits] at hhead
    split at hhead
    · next hn =>
      have hzero : digitChar n = '0' := Option.some.inj hhead
      have hvalue := digitChar_toNat hn
      rw [hzero] at hvalue
      exact Nat.left_eq_add.mp hvalue
    · next hn =>
      have hlt : n / 10 < fuel := by omega
      have hne : decimalDigits fuel (n / 10) ≠ [] := fun hnil => by
        have hzero : n / 10 = 0 := (digitsValue_decimalDigits hlt).symm.trans (congrArg digitsValue hnil)
        omega
      rw [List.head?_append_of_ne_nil _ hne] at hhead
      have := ih hlt hhead
      omega

/-! ## The statements on memory and DUMP -/

/-- Settles O18: what a canonical memory lists is what it reads as nonzero, in rising order. -/
theorem canonicalMemoriesAreDeterminedByTheirReads : Obligations.CanonicalMemoriesAreDeterminedByTheirReads :=
  fun _ _ hwf hwf' hread => eq_of_rising_of_mem_iff hwf.1 hwf'.1 fun a v => by
    rw [Memory.mem_iff_read hwf, Memory.mem_iff_read hwf', hread]

/-- Settles O17: the two cases of the interface's range test. -/
theorem memoryInterfaceMovesWholeCellsOrRefuses : Obligations.MemoryInterfaceMovesWholeCellsOrRefuses := by
  refine fun s a v k => ⟨fun ha => ?_, fun ha => ⟨State.withCell_of_le ha k, State.storeCell_of_le ha v⟩⟩
  refine ⟨State.withCell_of_lt ha k, _, State.storeCell_of_lt ha v, ?_, fun b hb => ?_, .setMem s _⟩
  · rw [State.cell_setMem_write, if_pos rfl]
  · rw [State.cell_setMem_write, if_neg hb]

/-- Settles O44: keys are put on the same cells. -/
theorem dumpListsTheCanonicalCells : Obligations.DumpListsTheCanonicalCells :=
  fun s start stop h => by rw [dump_eq_map_nonzeroCells, nonzeroCells_eq_filter h]

/-- Settles O43: digits and value as for an operand, and a numeral that begins with 0 is that of 0. -/
theorem dumpKeysAreDecimalNumerals : Obligations.DumpKeysAreDecimalNumerals := by
  refine ⟨fun a => ⟨rfl, decimalNumeral_ne_nil a, fun _ => isDigit_of_mem_decimalDigits, digitsValue_decimalNumeral a,
    fun hhead => ?_⟩, fun _ => rfl⟩
  cases eq_zero_of_head?_decimalDigits a.lt_succ_self hhead
  rfl

/-! ## What LDM and STM do -/

theorem exec_ldm_of_lt {b c : Nat} {s : State} (hb : b < s.memSize) (hc : c < s.memSize) (hp : s.cell c < s.memSize) :
    exec (.ldm b c) s = .next (s.setMem (s.mem.write b (s.cell (s.cell c)))) := by
  rw [exec_ldm, if_pos ⟨hb, hc, hp⟩]

theorem exec_ldm_of_le {b c : Nat} {s : State} (h : s.memSize ≤ b ∨ s.memSize ≤ c ∨ s.memSize ≤ s.cell c) :
    exec (.ldm b c) s = .next s := by
  rw [exec_ldm, if_neg]
  omega

theorem exec_stm_of_lt {b c : Nat} {s : State} (hb : b < s.memSize) (hc : c < s.memSize) :
    exec (.stm b c) s = .next (s.setMem (s.mem.write c (s.cell b))) := by
  rw [exec_stm, if_pos ⟨hc, hb⟩]

theorem exec_stm_of_le {b c : Nat} {s : State} (h : s.memSize ≤ b ∨ s.memSize ≤ c) : exec (.stm b c) s = .next s := by
  rw [exec_stm, if_neg]
  omega

/-- Where an instruction answers one write of `v`, its state holds `v` in the cell written. -/
theorem cell_of_eq_write {r : Result} {s t : State} {dst v : Nat} (hr : r = .next (s.setMem (s.mem.write dst v)))
    (h : r = .next t) : t.cell dst = v := by
  cases hr.symm.trans h
  rw [State.cell_setMem_write, if_pos rfl]

/-! ## The bounds rule -/

/-- LDM's participating addresses are among B, C and M[C] (40_engine.md R100, 92 D8). -/
theorem eq_of_mem_participating_ldm {a b c : Nat} {s : State} (h : a ∈ participating (.ldm b c) s) :
    a = b ∨ a = c ∨ a = s.cell c := by
  rw [participating] at h
  split at h
  · simpa using h
  · have hbc : a = b ∨ a = c := by simpa using h
    exact hbc.imp_right .inl

/-- An address out of range among the participating ones cancels the instruction, whichever it is. -/
theorem exec_of_participating_le {i : Instr} {s : State} {a : Nat} (ha : a ∈ participating i s) (hle : s.memSize ≤ a) :
    exec i s = .next s := by
  cases i with
  | ldc b c =>
    cases List.mem_singleton.mp ha
    exact exec_ldc_of_le c hle
  | ldm b c =>
    apply exec_ldm_of_le
    rcases eq_of_mem_participating_ldm ha with rfl | rfl | rfl
    · exact .inl hle
    · exact .inr (.inl hle)
    · exact .inr (.inr hle)
  | stm b c =>
    have hmem : a = b ∨ a = c := by simpa [participating] using ha
    apply exec_stm_of_le
    rcases hmem with rfl | rfl
    · exact .inl hle
    · exact .inr hle
  | max b c d =>
    have hmem : a = b ∨ a = c ∨ a = d := by simpa [participating] using ha
    apply exec_max_of_le
    rcases hmem with rfl | rfl | rfl
    · exact .inl hle
    · exact .inr (.inl hle)
    · exact .inr (.inr hle)

/-! ## The statements on LDM, STM and the bounds rule -/

/-- Settles O20: the two cases of LDM's bounds check, the frame of an instruction, and the layout of the encoding. -/
theorem ldmLoadsThroughItsPointer : Obligations.LdmLoadsThroughItsPointer := by
  refine ⟨fun b c s => ?_, fun _ _ => encode_ldm, by decide⟩
  obtain ⟨t, ht, hsame⟩ := exec_next (.ldm b c) s
  exact ⟨t, ht, fun hb hc hp => cell_of_eq_write (exec_ldm_of_lt hb hc hp) ht,
    fun hout => Host.Outcome.next.inj (ht.symm.trans (exec_ldm_of_le hout)), fun _ => exec_cell_of_ne ht, hsame⟩

/-- Settles O21: the two cases of STM's bounds check, the frame of an instruction, and the layout of the encoding. -/
theorem stmCopiesACell : Obligations.StmCopiesACell := by
  refine ⟨fun b c s => ?_, fun _ _ => encode_stm, by decide⟩
  obtain ⟨t, ht, hsame⟩ := exec_next (.stm b c) s
  exact ⟨t, ht, fun hb hc => cell_of_eq_write (exec_stm_of_lt hb hc) ht,
    fun hout => Host.Outcome.next.inj (ht.symm.trans (exec_stm_of_le hout)), fun _ => exec_cell_of_ne ht, hsame⟩

/-- Settles O24, the case split by instruction of `exec_of_participating_le`. -/
theorem outOfRangeAddressCancelsTheInstruction : Obligations.OutOfRangeAddressCancelsTheInstruction :=
  fun _ _ ⟨_, ha, hle⟩ => exec_of_participating_le ha hle

/-- The run is over where the flag is false or pc is at or beyond N (40_engine.md R102). -/
theorem State.not_inLoop_iff {s : State} : s.inLoop = false ↔ s.running = false ∨ s.framed.length ≤ s.pc := by
  rw [State.inLoop, Bool.and_eq_false_iff, decide_eq_false_iff_not, Nat.not_lt]

/-! ## The next framed instruction -/

theorem nextFramed_cons_unknown {first : Byte} (rest : List Byte) (h : lengthOfTag (tagOf first) = none) :
    nextFramed (first :: rest) = (nextFramed rest).map fun found => (found.1 + 1, found.2) := by
  simp only [nextFramed, h]

theorem nextFramed_cons_truncated {first : Byte} {rest : List Byte} {n : Nat} (h : lengthOfTag (tagOf first) = some n)
    (hlen : (first :: rest).length < n) : nextFramed (first :: rest) = none := by
  simp only [nextFramed, h, if_pos hlen]

theorem nextFramed_cons_recorded {first : Byte} {rest : List Byte} {n : Nat} (h : lengthOfTag (tagOf first) = some n)
    (hlen : n ≤ (first :: rest).length) : nextFramed (first :: rest) = some (n, (first :: rest).take n) := by
  simp only [nextFramed, h, if_neg (Nat.not_lt.mpr hlen)]

/-- F is empty where no further instruction is framed. -/
theorem frame_of_nextFramed_none {bytes : List Byte} (h : nextFramed bytes = none) : frame bytes = [] := by
  induction bytes using frame_scan_induction with
  | nil => rfl
  | unknown first rest hnone ih =>
    rw [nextFramed_cons_unknown rest hnone, Option.map_eq_none_iff] at h
    rw [frame_cons_unknown rest hnone, ih h]
  | truncated first rest n hn hlen => exact frame_cons_truncated hn hlen
  | recorded first rest n hn hlen ih => cases (nextFramed_cons_recorded hn hlen).symm.trans h

/-- F begins with the next framed instruction and goes on with the framing of what follows it. -/
theorem frame_of_nextFramed_some {bytes slice : List Byte} {passed : Nat}
    (h : nextFramed bytes = some (passed, slice)) : frame bytes = slice :: frame (bytes.drop passed) := by
  induction bytes using frame_scan_induction generalizing passed with
  | nil => cases h
  | unknown first rest hnone ih =>
    rw [nextFramed_cons_unknown rest hnone, Option.map_eq_some_iff] at h
    obtain ⟨⟨skipped, found⟩, hrest, heq⟩ := h
    cases heq
    rw [frame_cons_unknown rest hnone, ih hrest, List.drop_succ_cons]
  | truncated first rest n hn hlen => cases (nextFramed_cons_truncated hn hlen).symm.trans h
  | recorded first rest n hn hlen ih =>
    cases (nextFramed_cons_recorded hn hlen).symm.trans h
    exact frame_cons_recorded hn hlen

/-! ## The lazy machine keeps step with the eager one -/

/-- The byte offset of the lazy machine stands where the framing of the rest of P is the rest of F: what both machines
keep while the run flag is true (40_engine.md R103). -/
structure FramesRest (s : State) (offset : Nat) : Prop where
  running : s.running = true
  rest_eq : s.framed.drop s.pc = frame (s.program.drop offset)

theorem lazyStep_of_nextFramed_none {s : State} {offset : Nat} (h : nextFramed (s.program.drop offset) = none) :
    lazyStep { base := s, offset := offset } = .next { base := s, offset := offset } := by
  simp only [lazyStep, h, ite_self]

/-- Where both machines are at the same slice, the lazy step is the eager one beside the new offset. -/
theorem lazyStep_of_fetch {s : State} {offset passed : Nat} {slice : List Byte} (hrunning : s.running = true)
    (hnext : nextFramed (s.program.drop offset) = some (passed, slice)) (hfetch : s.fetch = some slice) :
    lazyStep { base := s, offset := offset } = LazyState.resume (offset + passed) (step s) := by
  simp only [lazyStep, step, hrunning, hnext, hfetch, if_true]
  cases decode slice <;> rfl

/-- One step of each machine from the same state leads to the same state, and the offset keeps its place. -/
theorem lazyStep_simulates_step {s t : State} {offset : Nat} (h : FramesRest s offset) (hstep : step s = .next t) :
    ∃ offset', lazyStep { base := s, offset := offset } = .next { base := t, offset := offset' } ∧
      FramesRest t offset' := by
  cases hnext : nextFramed (s.program.drop offset) with
  | none =>
    have hend : s.framed.length ≤ s.pc := List.drop_eq_nil_iff.mp (h.rest_eq.trans (frame_of_nextFramed_none hnext))
    cases (step_of_not_inLoop (State.not_inLoop_iff.mpr (.inr hend))).symm.trans hstep
    exact ⟨offset, lazyStep_of_nextFramed_none hnext, h⟩
  | some found =>
    obtain ⟨passed, slice⟩ := found
    have hrest : s.framed.drop s.pc = slice :: frame ((s.program.drop offset).drop passed) :=
      h.rest_eq.trans (frame_of_nextFramed_some hnext)
    have hslice : s.framed[s.pc]? = some slice := by rw [← List.head?_drop, hrest, List.head?_cons]
    have hlazy := lazyStep_of_fetch h.running hnext (fetch_eq h.running hslice)
    rw [hstep] at hlazy
    obtain ⟨hpc, hsame⟩ := holds_of_eq_next (step_pc_succ h.running (List.getElem?_eq_some_iff.mp hslice).1) hstep
    refine ⟨offset + passed, hlazy, hsame.running.trans h.running, ?_⟩
    rw [hsame.framed, hsame.program, hpc, ← List.tail_drop, hrest, List.tail_cons, List.drop_drop]

theorem lazySteps_succ_of_lazyStep (k : Nat) {l l' : LazyState} (h : lazyStep l = .next l') :
    lazySteps (k + 1) l = lazySteps k l' := by
  simp only [lazySteps, h]

/-- The induction over the steps: the two machines go through the same states. -/
theorem lazySteps_simulate_stepN (k : Nat) {s t : State} {offset : Nat} (h : FramesRest s offset)
    (hsteps : stepN k s = .next t) :
    ∃ offset', lazySteps k { base := s, offset := offset } = .next { base := t, offset := offset' } := by
  induction k generalizing s offset with
  | zero =>
    cases hsteps
    exact ⟨offset, rfl⟩
  | succ k ih =>
    obtain ⟨u, hstep, -⟩ := step_next s
    rw [stepN_succ_of_step k hstep] at hsteps
    obtain ⟨offset', hlazy, hkept⟩ := lazyStep_simulates_step h hstep
    rw [lazySteps_succ_of_lazyStep k hlazy]
    exact ih hkept hsteps

/-! ## The statements on a run and the legal states -/

/-- Settles O41: at the start of a RUN all of P is still to be framed, and `lazyStep_simulates_step` keeps the machines
together. -/
theorem lazyFramingReachesTheSameStates : Obligations.LazyFramingReachesTheSameStates :=
  fun _ _ k hrunning hframed hsteps => lazySteps_simulate_stepN k ⟨hrunning, hframed⟩ hsteps

/-- Settles O33, from what a step keeps of memory, program and pc. -/
theorem stepKeepsLegalStates : Obligations.StepKeepsLegalStates := fun _ _ => step_keeps_runLegal

/-- Settles O32: no cell is listed, and F is empty as P is. -/
theorem constructedStateIsLegal : Obligations.ConstructedStateIsLegal :=
  fun n => ⟨construct_memoryLegal n, construct_programLegal n, Nat.zero_le _⟩

/-- Settles O29: outside the loop nothing is fetched. -/
theorem finishedRunHoldsItsState : Obligations.FinishedRunHoldsItsState :=
  fun _ h => step_of_not_inLoop (State.not_inLoop_iff.mpr h)

/-- Settles O15, field by field. -/
theorem constructClearsTheMachine : Obligations.ConstructClearsTheMachine :=
  ⟨rfl, fun n => ⟨State.construct_memSize n, Memory.read_nil, State.construct_pc n, State.construct_program n,
    State.construct_framed n, State.construct_running n⟩⟩

/-- Settles O16, field by field. -/
theorem loadReplacesOnlyTheProgram : Obligations.LoadReplacesOnlyTheProgram :=
  fun s bytes => ⟨s.load bytes, rfl, s.load_program bytes, s.load_framed bytes, s.load_memSize bytes, s.load_mem bytes,
    s.load_pc bytes, s.load_running bytes, fun _ => rfl⟩

/-! ## Comments -/

theorem parseLine_congr (n : Nat) {text text' : List Char} (h : tokensOf text = tokensOf text') :
    parseLine n text = parseLine n text' := by
  simp only [parseLine, h]

/-- A carriage return is stripped from a comment, or there is none to strip: what stands before the comment stays. -/
theorem exists_stripReturn_comment (line comment : List Char) :
    ∃ kept, stripReturn (line ++ '#' :: comment) = line ++ '#' :: kept := by
  rw [stripReturn]
  split
  · next hreturn =>
    cases comment with
    | nil => simp at hreturn
    | cons c rest => exact ⟨(c :: rest).dropLast, by rw [List.dropLast_append_cons, List.dropLast_cons_cons]⟩
  · exact ⟨comment, rfl⟩

theorem stripComment_append_comment {line : List Char} (h : '#' ∉ line) (comment : List Char) :
    stripComment (line ++ '#' :: comment) = line := by
  rw [stripComment, List.takeWhile_append_of_pos, List.takeWhile_cons_of_neg (by decide), List.append_nil]
  exact fun c hc => bne_iff_ne.mpr (ne_of_mem_of_not_mem hc h)

theorem stripComment_of_not_mem {line : List Char} (h : '#' ∉ line) : stripComment line = line :=
  List.takeWhile_eq_self_iff.mpr fun _ hc => bne_iff_ne.mpr (ne_of_mem_of_not_mem hc h)

/-- A comment adds no token to a line and takes none away (30_encoding.md R67). -/
theorem tokensOf_append_comment {line : List Char} (hline : '#' ∉ line) (hreturn : line.getLast? ≠ some '\r')
    (comment : List Char) : tokensOf (line ++ '#' :: comment) = tokensOf line := by
  obtain ⟨kept, hkept⟩ := exists_stripReturn_comment line comment
  have hstrip : stripReturn line = line := if_neg hreturn
  rw [tokensOf, tokensOf, hkept, hstrip, stripComment_append_comment hline, stripComment_of_not_mem hline]

/-! ## The condition of an error -/

theorem parseSource_error_condition {text : List Char} {e : AsmError} (h : parseSource text = .error e) :
    e.condition ≠ .arityMismatch := by
  obtain ⟨line, source, -, -, hline⟩ := parseSource_eq_error h
  obtain ⟨mnemonic, operands, -, ⟨-, rfl⟩ | ⟨token, -, -, rfl⟩⟩ := parseLine_eq_error hline
  · exact nofun
  · exact nofun

theorem lowerAll_error_condition {srcs : List SourceInstr} {e : AsmError} (h : lowerAll srcs = .error e) :
    e.condition = .arityMismatch := by
  obtain ⟨src, -, -, rfl⟩ := lowerAll_eq_error h
  rfl

/-! ## The statements on the assembler -/

/-- Settles O47: lowering, which alone raises ArityMismatch, begins once the whole text has parsed. -/
theorem parseErrorsPrecedeArityErrors : Obligations.ParseErrorsPrecedeArityErrors := by
  intro text e h
  rcases assembleChars_eq_error.mp h with hparse | ⟨srcs, hparse, hlower⟩
  · exact .inl ⟨hparse, parseSource_error_condition hparse⟩
  · exact .inr ⟨⟨srcs, hparse⟩, lowerAll_error_condition hlower⟩

/-- Settles O49: a line is read through its tokens only. -/
theorem trailingCommentsAreDiscarded : Obligations.TrailingCommentsAreDiscarded :=
  fun n _ comment hline hreturn => parseLine_congr n (tokensOf_append_comment hline hreturn comment)

end Sys2Proof.Machine
end
